-- ==== Sys2Proof/Word.lean ====
section
/-! DEFINITION. The words the block moves: 32-bit command and result words, bytes of the buffers and of the atlas,
24-bit wire frames (spec/30_encoding.md R70). -/

namespace Sys2Proof

/-- A command word or a result word (R2, R70). -/
abbrev Word := BitVec 32

/-- A byte of the framebuffer, the committed buffer, the atlas, or a byte sent to the controller. -/
abbrev Byte := BitVec 8

/-- A wire frame as a number, the first bit sent in bit 23 (R83). -/
abbrev FrameBits := BitVec 24

end Sys2Proof
end

