-- ==== Sys2Proof/Config.lean ====
section
/-! DEFINITION. The parameters of spec/00_scope.md section 3 (R5): the ones with a value as named constants, the OPEN
ones as constants with no body, and the free draws of the buffers after reset (spec/70_reset_and_hazards.md R240, R241). -/

namespace Sys2Proof.Config

/-- `W`: framebuffer width in pixels. -/
@[simp] abbrev W : Nat := 128
/-- `H`: framebuffer height in pixels. -/
@[simp] abbrev H : Nat := 64
/-- `BPP`: bits per pixel. -/
@[simp] abbrev BPP : Nat := 1
/-- `ROW_BYTES` = `W/8`. -/
@[simp] abbrev rowBytes : Nat := 16
/-- `FB_BYTES` = `ROW_BYTES*H`. -/
@[simp] abbrev fbBytes : Nat := 1024
/-- `WORD_BYTES`: bytes per protocol word. -/
@[simp] abbrev wordBytes : Nat := 2
/-- `ROW_WORDS` = `ROW_BYTES/2`. -/
@[simp] abbrev rowWords : Nat := 8
/-- `BANKS`: half-screen banks. -/
@[simp] abbrev banks : Nat := 2
/-- `BANK_ROWS` = `H/2`. -/
@[simp] abbrev bankRows : Nat := 32
/-- `BANK_COL_OFFSET`, in word-address units (90_conflicts.md C2). -/
@[simp] abbrev bankColOffset : Nat := 8
/-- `GLYPH_ROWS`: rows per glyph cell. -/
@[simp] abbrev glyphRows : Nat := 16
/-- `GLYPH_ROW_BYTES`: bytes per glyph row. -/
@[simp] abbrev glyphRowBytes : Nat := 2
/-- `GLYPH_STRIDE`: bytes per glyph cell. -/
@[simp] abbrev glyphStride : Nat := 32
/-- `NARROW_LIMIT`: codepoints below it are narrow. -/
@[simp] abbrev narrowLimit : Nat := 128
/-- `NARROW_W`: narrow glyph width and advance. -/
@[simp] abbrev narrowW : Nat := 8
/-- `WIDE_W`: wide glyph width and advance. -/
@[simp] abbrev wideW : Nat := 16
/-- `LINE_ADVANCE`: y advance on a newline. -/
@[simp] abbrev lineAdvance : Nat := 16
/-- `NEWLINE`: U+000A. -/
@[simp] abbrev newline : Nat := 0x0A
/-- `SYNC_BITS`: leading high bits of a frame. -/
@[simp] abbrev syncBits : Nat := 5
/-- `FRAME_BITS`: bits per byte transfer. -/
@[simp] abbrev frameBits : Nat := 24
/-- `MAX_TEXT`: most codepoints in one DRAW_TEXT. -/
@[simp] abbrev maxText : Nat := 65535
/-- `CLEAR_WAIT_MIN` = 1.6 ms, in nanoseconds (DESIGN CHOICE of the unit, log 6). -/
@[simp] abbrev clearWaitMin : Nat := 1600000

/-- The glyph atlas as the atlas port presents it (R31, R55): its number of cells and its bytes. A configuration input
of the block, complete and constant (R247; log 11). -/
structure Atlas where
  /-- `N_GLYPHS`, OPEN. -/
  nGlyphs : Nat
  /-- `AtlasRead`, asked only below `ATLAS_BYTES` (R55, R130). -/
  byte : Nat → Byte
  deriving Inhabited

/-- `ATLAS_BYTES` = `N_GLYPHS*32`. -/
def Atlas.bytes (a : Atlas) : Nat := a.nGlyphs * glyphStride

/-- The atlas of this machine: OPEN (R5), so a constant with no body (log 5). -/
opaque atlas : Atlas

/-- The controller's command bytes (R85), all OPEN. -/
structure CommandBytes where
  /-- `CMD_BASIC8` -/
  basic8 : Byte
  /-- `CMD_CLEAR` -/
  clear : Byte
  /-- `CMD_EXT` -/
  ext : Byte
  /-- `CMD_GFX_ON` -/
  gfxOn : Byte
  /-- `CMD_ADDR` -/
  addr : Byte
  deriving DecidableEq, Repr, Inhabited

/-- The command bytes of this machine: OPEN, so a constant with no body (log 5). -/
opaque commandBytes : CommandBytes

/-- How much longer than `CLEAR_WAIT_MIN` the block waits after the clear, in nanoseconds: OPEN (log 5, log 6). -/
opaque clearWaitSlack : Nat

/-- `CLEAR_WAIT`: OPEN, at least `CLEAR_WAIT_MIN` (R165, R170). -/
def clearWait : Nat := clearWaitMin + clearWaitSlack

/-- `T_BIT`: OPEN. No rule depends on it (R160, R260) and the model takes no time (log 8), so nothing reads it. -/
opaque bitTime : Nat

/-- How many bits wider than needed the atlas port's address is: OPEN (log 5). -/
opaque atlasAddrSlack : Nat

/-- `ATLAS_ADDR_BITS`: OPEN, at least `ceil(log2(ATLAS_BYTES))`. The address is exact (R130), so nothing reads it. -/
def atlasAddrBits : Nat := Nat.clog 2 atlas.bytes + atlasAddrSlack

/-- FREE VALUE (log 4): the byte of the framebuffer at index `i` that the `n`-th reset left there (R21, R240, R241). -/
opaque fbDraw (n i : Nat) : Byte

/-- FREE VALUE (log 4): the byte of the committed buffer at index `i` that the `n`-th reset left there (R22, R240, R241). -/
opaque cbDraw (n i : Nat) : Byte

end Sys2Proof.Config
end

