-- ==== Sys2Proof/Syntax.lean ====
section
/-! DEFINITION. The operations, one constructor per row of spec/opcode_table.json: the ten commands (R75), the two wire
frames (R82, R162) and the three reserved rows (R78). Operands are as the rules name them: integers for coordinates
(R73), naturals for codepoints (R74), a Bool for the pixel value V (R72). -/

namespace Sys2Proof

inductive Instr where
  /-- SET_PIXEL x, y, v (R103) -/
  | setPixel (x y : Int) (v : Bool)
  /-- GET_PIXEL x, y (R102) -/
  | getPixel (x y : Int)
  /-- FILL v (R104) -/
  | fill (v : Bool)
  /-- DRAW_RECT x0, y0, x1, y1, v (R105) -/
  | drawRect (x0 y0 x1 y1 : Int) (v : Bool)
  /-- DRAW_GLYPH x, y, cp, v (R133) -/
  | drawGlyph (x y : Int) (cp : Nat) (v : Bool)
  /-- DRAW_TEXT x, y, [cp_0, ...], v (R134) -/
  | drawText (x y : Int) (cps : List Nat) (v : Bool)
  /-- SETUP (R170) -/
  | setup
  /-- COMMIT_DIFF (R174) -/
  | commitDiff
  /-- COMMIT_FULL (R176) -/
  | commitFull
  /-- READ_STATUS (R200) -/
  | readStatus
  /-- FRAME_CMD: WriteCmd(v), one command frame (R162) -/
  | frameCmd (v : Byte)
  /-- FRAME_DATA: WriteData(v), one data frame (R162) -/
  | frameData (v : Byte)
  /-- RESERVED, OP = 0x0, with the header's bits 27:0 (R78) -/
  | reserved0 (rest : BitVec 28)
  /-- RESERVED, OP = 0x7, with the header's bits 27:0 (R78) -/
  | reserved7 (rest : BitVec 28)
  /-- RESERVED, OP = 0xC to 0xF, with the header's bits 29:0 (R78) -/
  | reservedC (rest : BitVec 30)
  deriving DecidableEq, Repr

end Sys2Proof
end

