-- ==== Sys2Proof/WellFormed.lean ====
section
/-! DEFINITION. Which operations have an encoding: coordinates of 16-bit two's complement (R73), codepoints of 32 bits
(R74), texts of at most `MAX_TEXT` codepoints (R80). -/

namespace Sys2Proof

/-- A coordinate an `XY` word can carry (R73). -/
abbrev coordOk (c : Int) : Prop := -32768 ≤ c ∧ c ≤ 32767

/-- A codepoint a `CP` word can carry (R74). -/
abbrev codepointOk (cp : Nat) : Prop := cp < 4294967296

/-- The operands fit their fields. The operations without operands, and those whose operands are bit vectors of the
field's own width, always do. -/
def Instr.wellFormed : Instr → Bool
  | .setPixel x y _ => coordOk x && coordOk y
  | .getPixel x y => coordOk x && coordOk y
  | .fill _ => true
  | .drawRect x0 y0 x1 y1 _ => coordOk x0 && coordOk y0 && coordOk x1 && coordOk y1
  | .drawGlyph x y cp _ => coordOk x && coordOk y && codepointOk cp
  | .drawText x y cps _ =>
      coordOk x && coordOk y && decide (cps.length ≤ Config.maxText) && cps.all (fun cp => codepointOk cp)
  | .setup => true
  | .commitDiff => true
  | .commitFull => true
  | .readStatus => true
  | .frameCmd _ => true
  | .frameData _ => true
  | .reserved0 _ => true
  | .reserved7 _ => true
  | .reservedC _ => true

end Sys2Proof
end

