-- ==== Sys2Proof/Decode.lean ====
section
/-! DEFINITION. The two encodings of spec/30_encoding.md: command words (R71 to R81) and wire frames (R82 to R84);
the decoder, total on any words, and after it the encoder. -/

namespace Sys2Proof

/-! ## The fields of a header word (R72) -/

/-- `OP = h[31:28]`. -/
def opField (h : Word) : BitVec 4 := h.extractLsb' 28 4
/-- `V = h[27]`. -/
def vField (h : Word) : Bool := h.getLsbD 27
/-- `RSV = h[26:16]`. -/
def rsvField (h : Word) : BitVec 11 := h.extractLsb' 16 11
/-- `LEN = h[15:0]`. -/
def lenField (h : Word) : BitVec 16 := h.extractLsb' 0 16

/-! ## Operand words -/

/-- The `x` of an `XY` word: `sext_16(p[15:0])` (R73). -/
def xOfXY (p : Word) : Int := (p.extractLsb' 0 16).toInt
/-- The `y` of an `XY` word: `sext_16(p[31:16])` (R73). -/
def yOfXY (p : Word) : Int := (p.extractLsb' 16 16).toInt
/-- The codepoint of a `CP` word: `zext_32(q)` (R74). -/
def cpOfCP (q : Word) : Nat := q.toNat

/-! ## Operations of the header -/

/-- What the `OP` field selects (R75); the reserved values by their rows of the opcode table. -/
inductive Op where
  | reserved0 | setPixel | getPixel | fill | drawRect | drawGlyph | drawText | reserved7
  | setup | commitDiff | commitFull | readStatus | reservedC
  deriving DecidableEq, Repr

/-- The opcode map (R75). -/
def opOf (o : BitVec 4) : Op :=
  match o.toNat with
  | 0x0 => .reserved0
  | 0x1 => .setPixel
  | 0x2 => .getPixel
  | 0x3 => .fill
  | 0x4 => .drawRect
  | 0x5 => .drawGlyph
  | 0x6 => .drawText
  | 0x7 => .reserved7
  | 0x8 => .setup
  | 0x9 => .commitDiff
  | 0xA => .commitFull
  | 0xB => .readStatus
  | _ => .reservedC

/-- Operand words after the header, from the operation and, for DRAW_TEXT, from `LEN` (R75, R76). -/
def operandWords (h : Word) : Nat :=
  match opOf (opField h) with
  | .setPixel | .getPixel => 1
  | .drawRect | .drawGlyph => 2
  | .drawText => 1 + (lenField h).toNat
  | .fill | .setup | .commitDiff | .commitFull | .readStatus => 0
  | .reserved0 | .reserved7 | .reservedC => 0

/-- The length of a command in words, told from its header alone (R77). -/
def commandLength (h : Word) : Nat := 1 + operandWords h

/-- Whether the operation uses `V` (R72, R75). -/
def Op.usesV : Op → Bool
  | .setPixel | .fill | .drawRect | .drawGlyph | .drawText => true
  | .getPixel | .setup | .commitDiff | .commitFull | .readStatus => false
  | .reserved0 | .reserved7 | .reservedC => false

/-- Whether the operation uses `LEN` (R72, R75). -/
def Op.usesLen : Op → Bool
  | .drawText => true
  | .setPixel | .getPixel | .fill | .drawRect | .drawGlyph | .setup | .commitDiff | .commitFull | .readStatus => false
  | .reserved0 | .reserved7 | .reservedC => false

/-- Why an encoding is rejected. The block records none of it (R212); the names are the decoder's. -/
inductive DecodeError where
  /-- a nonzero `RSV` in a header with an assigned `OP` (R78) -/
  | reservedFieldSet
  /-- `V = 1` where `V` is unused (R78) -/
  | unusedValueSet
  /-- a nonzero `LEN` where `LEN` is unused (R78) -/
  | unusedLengthSet
  /-- the operand words are not as many as the header says -/
  | operandCount
  /-- a 24-bit pattern that is neither kind of frame (R84) -/
  | notAFrame
  deriving DecidableEq, Repr

/-- What is wrong with a header of an assigned `OP`, if anything (R76, R78). -/
def headerError (h : Word) : Option DecodeError :=
  if rsvField h ≠ 0 then some .reservedFieldSet
  else if vField h && !(opOf (opField h)).usesV then some .unusedValueSet
  else if lenField h ≠ 0 && !(opOf (opField h)).usesLen then some .unusedLengthSet
  else none

/-- An operation with no operand words. -/
def noOperand (ops : List Word) (i : Instr) : Except DecodeError Instr :=
  match ops with
  | [] => .ok i
  | _ :: _ => .error .operandCount

/-- An operation with one operand word. -/
def oneOperand (ops : List Word) (f : Word → Instr) : Except DecodeError Instr :=
  match ops with
  | [p] => .ok (f p)
  | _ => .error .operandCount

/-- An operation with two operand words. -/
def twoOperands (ops : List Word) (f : Word → Word → Instr) : Except DecodeError Instr :=
  match ops with
  | [p, q] => .ok (f p q)
  | _ => .error .operandCount

/-- DRAW_TEXT's operands: a point, then as many codepoints as `LEN` says. -/
def textOperands (ops : List Word) (len : Nat) (f : Word → List Word → Instr) : Except DecodeError Instr :=
  match ops with
  | p :: cs => if cs.length = len then .ok (f p cs) else .error .operandCount
  | [] => .error .operandCount

/-- The operation of an assigned `OP`, if its header is legal. -/
def ifLegal (h : Word) (r : Except DecodeError Instr) : Except DecodeError Instr :=
  match headerError h with
  | some e => .error e
  | none => r

/-- One command of a known operation from its header and its operand words (R76). A reserved `OP` is a row of the table
and decodes to it, whatever its other bits; an illegal header of an assigned `OP` is rejected by name. -/
def decodeOp (op : Op) (h : Word) (ops : List Word) : Except DecodeError Instr :=
  match op with
  | .reserved0 => noOperand ops (.reserved0 (h.extractLsb' 0 28))
  | .reserved7 => noOperand ops (.reserved7 (h.extractLsb' 0 28))
  | .reservedC => noOperand ops (.reservedC (h.extractLsb' 0 30))
  | .setPixel => ifLegal h (oneOperand ops fun p => .setPixel (xOfXY p) (yOfXY p) (vField h))
  | .getPixel => ifLegal h (oneOperand ops fun p => .getPixel (xOfXY p) (yOfXY p))
  | .fill => ifLegal h (noOperand ops (.fill (vField h)))
  | .drawRect =>
      ifLegal h (twoOperands ops fun p q => .drawRect (xOfXY p) (yOfXY p) (xOfXY q) (yOfXY q) (vField h))
  | .drawGlyph => ifLegal h (twoOperands ops fun p c => .drawGlyph (xOfXY p) (yOfXY p) (cpOfCP c) (vField h))
  | .drawText =>
      ifLegal h (textOperands ops (lenField h).toNat fun p cs =>
        .drawText (xOfXY p) (yOfXY p) (cs.map cpOfCP) (vField h))
  | .setup => ifLegal h (noOperand ops .setup)
  | .commitDiff => ifLegal h (noOperand ops .commitDiff)
  | .commitFull => ifLegal h (noOperand ops .commitFull)
  | .readStatus => ifLegal h (noOperand ops .readStatus)

/-- One command from its header and its operand words (R76). -/
def decodeCommand (h : Word) (ops : List Word) : Except DecodeError Instr := decodeOp (opOf (opField h)) h ops

/-- What the decoder makes of the words at hand. -/
inductive Fetched where
  /-- no whole command yet (R29) -/
  | waiting
  /-- an illegal command and the words after it (R76) -/
  | illegal (why : DecodeError) (rest : List Word)
  /-- a command and the words after it -/
  | command (i : Instr) (rest : List Word)
  deriving DecidableEq, Repr

/-- Decode the command at the front of a list of words (R76): the length from the header, then the operands. -/
def decodeStream : List Word → Fetched
  | [] => .waiting
  | h :: ws =>
    if ws.length < operandWords h then .waiting
    else
      match decodeCommand h (ws.take (operandWords h)) with
      | .ok i => .command i (ws.drop (operandWords h))
      | .error e => .illegal e (ws.drop (operandWords h))

/-- The two kinds of encoding the block has (R70). -/
inductive Encoded where
  /-- the words of one command -/
  | command (ws : List Word)
  /-- one wire frame -/
  | frame (f : FrameBits)
  deriving DecidableEq, Repr

/-- A wire frame read back (R84): command frames match 0xF80000 and data frames 0xFA0000 under mask 0xFF0F0F. -/
def decodeFrame (f : FrameBits) : Option Instr :=
  if f &&& 0xFF0F0F#24 = 0xF80000#24 then some (.frameCmd (f.extractLsb' 12 4 ++ f.extractLsb' 4 4))
  else if f &&& 0xFF0F0F#24 = 0xFA0000#24 then some (.frameData (f.extractLsb' 12 4 ++ f.extractLsb' 4 4))
  else none

/-- The decoder of one whole encoding, total, rejecting by name. -/
def decode : Encoded → Except DecodeError Instr
  | .command ws =>
    match decodeStream ws with
    | .command i [] => .ok i
    | .command _ (_ :: _) => .error .operandCount
    | .illegal e _ => .error e
    | .waiting => .error .operandCount
  | .frame f =>
    match decodeFrame f with
    | some i => .ok i
    | none => .error .notAFrame

/-! ## The opcode table's numbering -/

/-- The words of a number whose bit 0 is the least significant bit of the first word, as many as its header says. -/
def tableWords (w : Nat) : List Word :=
  (List.range (commandLength (BitVec.ofNat 32 w))).map fun k => BitVec.ofNat 32 (w >>> (32 * k))

/-- The instruction the decoder reads from a row of spec/opcode_table.json: a 24-bit row is a wire frame, a longer one
a command whose operand words beyond the given bits are zero. -/
def decodeTableWord (nbits w : Nat) : Option Instr :=
  match decode (if nbits ≤ 24 then .frame (BitVec.ofNat 24 w) else .command (tableWords w)) with
  | .ok i => some i
  | .error _ => none

/-! ## The encoder -/

/-- `h = (OP << 28) | (V << 27) | LEN` (R81). -/
def header (op : BitVec 4) (v : Bool) (len : BitVec 16) : Word :=
  (op.setWidth 32 <<< 28) ||| ((BitVec.ofBool v).setWidth 32 <<< 27) ||| len.setWidth 32

/-- `XY(x, y) = ((y mod 2^16) << 16) | (x mod 2^16)` (R81). -/
def encodeXY (x y : Int) : Word :=
  ((BitVec.ofInt 16 y).setWidth 32 <<< 16) ||| (BitVec.ofInt 16 x).setWidth 32

/-- `CP(cp) = cp` (R81). -/
def encodeCP (cp : Nat) : Word := BitVec.ofNat 32 cp

/-- `Frame(rs, v) = 0xF80000 | (rs << 17) | (v[7:4] << 12) | (v[3:0] << 4)` (R83). -/
def frameOf (rs : Bool) (v : Byte) : FrameBits :=
  0xF80000#24 ||| ((BitVec.ofBool rs).setWidth 24 <<< 17) |||
    ((v.extractLsb' 4 4).setWidth 24 <<< 12) ||| ((v.extractLsb' 0 4).setWidth 24 <<< 4)

/-- A header with a reserved `OP` and any other bits (R78). -/
def reservedHeader (op : BitVec 4) (rest : BitVec 28) : Word := (op.setWidth 32 <<< 28) ||| rest.setWidth 32

/-- A header whose `OP` is 0xC to 0xF, with any other bits (R78). -/
def reservedHeaderC (rest : BitVec 30) : Word := 0xC0000000#32 ||| rest.setWidth 32

/-- The encoding of an operation (R75, R81, R83), from the same tables the decoder reads. -/
def encode : Instr → Encoded
  | .setPixel x y v => .command [header 0x1 v 0, encodeXY x y]
  | .getPixel x y => .command [header 0x2 false 0, encodeXY x y]
  | .fill v => .command [header 0x3 v 0]
  | .drawRect x0 y0 x1 y1 v => .command [header 0x4 v 0, encodeXY x0 y0, encodeXY x1 y1]
  | .drawGlyph x y cp v => .command [header 0x5 v 0, encodeXY x y, encodeCP cp]
  | .drawText x y cps v =>
      .command (header 0x6 v (BitVec.ofNat 16 cps.length) :: encodeXY x y :: cps.map encodeCP)
  | .setup => .command [header 0x8 false 0]
  | .commitDiff => .command [header 0x9 false 0]
  | .commitFull => .command [header 0xA false 0]
  | .readStatus => .command [header 0xB false 0]
  | .frameCmd v => .frame (frameOf false v)
  | .frameData v => .frame (frameOf true v)
  | .reserved0 rest => .command [reservedHeader 0x0 rest]
  | .reserved7 rest => .command [reservedHeader 0x7 rest]
  | .reservedC rest => .command [reservedHeaderC rest]

/-- The words a host sends for an operation; a wire frame is no command (R70, R75). -/
def commandWords (i : Instr) : List Word :=
  match encode i with
  | .command ws => ws
  | .frame _ => []

/-- One row of spec/opcode_table.json: a word matches when its bits under `mask` are `pattern`. -/
structure OpcodeRow where
  mask : Word
  pattern : Word
  op : Op
  deriving DecidableEq, Repr

/-- The command rows of spec/opcode_table.json, transcribed. -/
def opcodeRows : List OpcodeRow :=
  [⟨0xF7FFFFFF, 0x10000000, .setPixel⟩, ⟨0xFFFFFFFF, 0x20000000, .getPixel⟩, ⟨0xF7FFFFFF, 0x30000000, .fill⟩,
   ⟨0xF7FFFFFF, 0x40000000, .drawRect⟩, ⟨0xF7FFFFFF, 0x50000000, .drawGlyph⟩, ⟨0xF7FF0000, 0x60000000, .drawText⟩,
   ⟨0xFFFFFFFF, 0x80000000, .setup⟩, ⟨0xFFFFFFFF, 0x90000000, .commitDiff⟩, ⟨0xFFFFFFFF, 0xA0000000, .commitFull⟩,
   ⟨0xFFFFFFFF, 0xB0000000, .readStatus⟩, ⟨0xF0000000, 0x00000000, .reserved0⟩, ⟨0xF0000000, 0x70000000, .reserved7⟩,
   ⟨0xC0000000, 0xC0000000, .reservedC⟩]

end Sys2Proof
end

