-- ==== Sys2Proof/Machine/State.lean ====
section
/-! DEFINITION. The state of the block as plain data (spec/10_state.md R20), with the command port and the wire trace
beside it, the reasons a step can stop, and the state after reset (spec/70_reset_and_hazards.md R240). -/

namespace Sys2Proof.Machine

/-- A 1024-byte buffer as the list of its bytes that have been written since reset, by rising byte index (R21, R22).
A byte it does not list has no value of the model's: it reads as the reset's free draw (R241; log 4, log 15). -/
abbrev Memory := List Host.Cell

/-- One event of the wire trace (R160, R165, R166). -/
inductive WireEvent where
  /-- DATA driven to `b`, then CLK pulsed high and low (R160) -/
  | bit (b : Bool)
  /-- both lines held for at least `t` nanoseconds (R165; the unit: log 6) -/
  | wait (t : Nat)
  deriving DecidableEq, Repr

/-- The command decoder's position in the command stream (R29). -/
inductive DecoderPos where
  /-- the next word is a header -/
  | boundary
  /-- a command's header has been received and some of its operand words, in order -/
  | inside (header : Word) (operands : List Word)
  deriving DecidableEq, Repr

/-- The words of the command the decoder is inside. -/
def DecoderPos.words : DecoderPos → List Word
  | .boundary => []
  | .inside h ops => h :: ops

structure State where
  /-- `FB`, the framebuffer (R21) -/
  fb : Memory
  /-- `CB`, the committed buffer (R22) -/
  cb : Memory
  /-- `STATUS` (R25) -/
  status : Word
  /-- the result queue, its head first (R27) -/
  results : List Word
  /-- the DATA line (R28) -/
  data : Bool
  /-- the CLK line (R28) -/
  clk : Bool
  /-- the command decoder's position (R29) -/
  decoder : DecoderPos
  /-- the command port: words the host has sent and the block has not taken, oldest first (R2, R248; log 1) -/
  port : List Word
  /-- the wire trace since reset, oldest first (R166) -/
  wire : List WireEvent
  /-- the model's own: frames put before the serializer directly (log 2); no run from reset has any -/
  frames : List FrameBits
  /-- the model's own: which reset's free draws unlisted bytes read as (log 4) -/
  draw : Nat
  deriving DecidableEq, Repr

/-- Why a step stops. -/
inductive Fault where
  /-- Raised by `step` alone, when a 24-bit pattern put before the serializer (the model's field `frames`) is neither
  kind of frame: the block sends no such frame (R84). Safe: no run from reset reaches it (log 2). -/
  | notAFrame (f : FrameBits)
  deriving DecidableEq, Repr

/-- Why an instruction has no meaning. -/
inductive Refusal where
  /-- Raised by an arm of `exec` whose instruction has no meaning yet; no arm of this model does. Safe. -/
  | notModelled (mnemonic : String)
  deriving DecidableEq, Repr

/-- The block right after reset (R240): both buffers unspecified (nothing listed, so every byte is a free draw),
STATUS zero, no results, lines low, the decoder at a command boundary; nothing sent to it and nothing emitted yet. -/
def State.reset : State where
  fb := []
  cb := []
  status := 0
  results := []
  data := false
  clk := false
  decoder := .boundary
  port := []
  wire := []
  frames := []
  draw := 0

end Sys2Proof.Machine
end

