-- ==== Sys2Proof/Machine/Flags.lean ====
section
/-! DEFINITION. The fields of `STATUS` (spec/10_state.md R25): the block has no other flags (R33). -/

namespace Sys2Proof.Machine

/-- The four bits of `STATUS` that are not hardwired (R25). -/
inductive StatusBit where
  | init | synced | ill | order
  deriving DecidableEq, Repr

/-- The bit's number in `STATUS` (R25, R214). -/
def StatusBit.index : StatusBit → Nat
  | .init => 0
  | .synced => 1
  | .ill => 2
  | .order => 3

/-- The word with that one bit set. -/
def StatusBit.mask (b : StatusBit) : Word := 1#32 <<< b.index

/-- Read one bit of `STATUS`. -/
def State.flag (b : StatusBit) (s : State) : Bool := s.status.getLsbD b.index

/-- Set one bit of `STATUS`, leaving the others. -/
def State.setFlag (b : StatusBit) (s : State) : State := { s with status := s.status ||| b.mask }

/-- Clear one bit of `STATUS`, leaving the others. -/
def State.clearFlag (b : StatusBit) (s : State) : State := { s with status := s.status &&& ~~~ b.mask }

end Sys2Proof.Machine
end

