-- ==== Sys2Proof/Machine/Operands.lean ====
section
/-! DEFINITION. What coordinates, words and codepoints name: pixels of the framebuffer, controller addresses, atlas
addresses (spec/20_memory.md R46 to R52, R56; spec/41_glyph.md R131). -/

namespace Sys2Proof.Machine

/-- `InBounds(x, y)` for integers of any sign (R47). -/
abbrev InBounds (x y : Int) : Prop := 0 ≤ x ∧ x < Config.W ∧ 0 ≤ y ∧ y < Config.H

/-- `PixIndex(x, y)`: the byte and the bit of an in-bounds pixel (R46). -/
def pixIndex (x y : Int) : Nat × Nat :=
  ((y * Config.rowBytes + x / 8).toNat, (7 - x % 8).toNat)

/-- The row of word `w` (R49). -/
def wordRow (w : Nat) : Nat := w / Config.rowWords
/-- The word column of word `w` (R49). -/
def wordCol (w : Nat) : Nat := w % Config.rowWords
/-- The bank of row `y` (R50). -/
def bankOf (y : Nat) : Nat := y / Config.bankRows

/-- `Addr(y, c)`: the controller's row and column address of a word (R51). -/
def addrOf (y c : Nat) : Nat × Nat :=
  if y < Config.bankRows then (y, c) else (y - Config.bankRows, c + Config.bankColOffset)

/-- `GlyphWidth(cp)` (R131). -/
def glyphWidth (cp : Nat) : Nat := if cp < Config.narrowLimit then Config.narrowW else Config.wideW

/-- The atlas address of byte 0 of row `r` of the cell of `cp`, exact (R56, R130). -/
def cellAddr (cp r : Nat) : Nat := cp * Config.glyphStride + Config.glyphRowBytes * r

/-- The integers from `lo` to `hi` inclusive, rising; none when `hi < lo`. -/
def intSpan (lo hi : Int) : List Int := (List.range (hi - lo + 1).toNat).map fun (k : Nat) => lo + (k : Int)

end Sys2Proof.Machine
end

