-- ==== Sys2Proof/Machine/Ops.lean ====
section
/-! DEFINITION. The named operations every meaning is built from: bytes of the two buffers, pixels (spec/40_framebuffer.md
R100, R101), results (R27), raising an error (spec/60_exceptions.md R211, R213, R215), and the wire
(spec/42_protocol.md R160 to R165). -/

namespace Sys2Proof.Machine

/-! ## Memory -/

/-- The listed value of byte `a`; an unlisted byte has none. -/
def Memory.read : Memory → Nat → Option Byte
  | [], _ => none
  | (a', b) :: m, a => if a' = a then some b else Memory.read m a

/-- Write one byte, keeping the addresses strictly rising (log 15). -/
def Memory.write : Memory → Nat → Byte → Memory
  | [], a, b => [(a, b)]
  | (a', b') :: m, a, b =>
    if a = a' then (a, b) :: m
    else if a < a' then (a, b) :: (a', b') :: m
    else (a', b') :: Memory.write m a b

/-- The buffer with all 1024 bytes listed, byte `i` being `f i`. Irreducible, so that no definitional check lists the
bytes; its lemmas are in Laws/Memory.lean. -/
@[irreducible] def Memory.ofBytes (f : Nat → Byte) : Memory := (List.range Config.fbBytes).map fun i => (i, f i)

/-- The addresses rise strictly. -/
def Memory.rising : Memory → Bool
  | [] => true
  | [_] => true
  | c :: d :: m => decide (c.1 < d.1) && Memory.rising (d :: m)

/-- The canonical form: addresses strictly rising, each in `[0, 1024)`. What an unlisted byte reads as is a free draw,
which no listed value is known to equal, so there is nothing to remove (log 15). -/
def Memory.wf (m : Memory) : Bool := m.rising && m.all fun c => decide (c.1 < Config.fbBytes)

/-- `FB[i]` (R21): the byte written last, else the reset's free draw (R241). -/
def State.fbByte (s : State) (i : Nat) : Byte := (s.fb.read i).getD (Config.fbDraw s.draw i)

/-- `CB[i]` (R22): the byte written last, else the reset's free draw (R241). -/
def State.cbByte (s : State) (i : Nat) : Byte := (s.cb.read i).getD (Config.cbDraw s.draw i)

/-- `FB[i] <- b`. -/
def State.setFbByte (i : Nat) (b : Byte) (s : State) : State := { s with fb := s.fb.write i b }

/-- Every byte of `FB` at once (R104). -/
def State.setFb (f : Nat → Byte) (s : State) : State := { s with fb := Memory.ofBytes f }

/-- `CB[i] <- FB[i]` for every `i` (R24, R174, R176). -/
def State.copyFbToCb (s : State) : State := { s with cb := Memory.ofBytes s.fbByte }

/-! ## Pixels -/

/-- `(byte & ~(1 << b)) | (v << b)` (R100). -/
def putBit (byte : Byte) (b : Nat) (v : Bool) : Byte :=
  (byte &&& ~~~ (1#8 <<< b)) ||| ((BitVec.ofBool v).setWidth 8 <<< b)

/-- `PixWrite(x, y, v)`: one bit of one byte, or nothing when the pixel is out of bounds (R100). -/
def State.pixWrite (x y : Int) (v : Bool) (s : State) : State :=
  if InBounds x y then
    s.setFbByte (pixIndex x y).1 (putBit (s.fbByte (pixIndex x y).1) (pixIndex x y).2 v)
  else s

/-- `PixRead(x, y)`: the pixel's bit, 0 out of bounds (R101). -/
def State.pixRead (x y : Int) (s : State) : Bool :=
  if InBounds x y then (s.fbByte (pixIndex x y).1).getLsbD (pixIndex x y).2 else false

/-- Write `v` to each pixel of a list, in order, clipped pixel by pixel: what every drawing command does. -/
def State.paint (ps : List (Int × Int)) (v : Bool) (s : State) : State :=
  ps.foldl (fun t p => t.pixWrite p.1 p.2 v) s

/-! ## Results -/

/-- `Result(w)`: append a word to the result queue (R27). -/
def State.pushResult (w : Word) (s : State) : State := { s with results := s.results ++ [w] }

/-! ## Raising an error -/

/-- The block's two error conditions (R214). -/
inductive ErrorCode where
  | illegal | orderError
  deriving DecidableEq, Repr

/-- The `STATUS` bit that records the error (R214). -/
def ErrorCode.bit : ErrorCode → StatusBit
  | .illegal => .ill
  | .orderError => .order

/-- `raise`: set the error's sticky bit and end the command (R211, R213, R215). There is no vector, no saved state, no
mode change and no return (R215, R219): the next word is a header, as after any command. -/
def State.raise (e : ErrorCode) (s : State) : State := s.setFlag e.bit

/-! ## The wire -/

/-- `EmitBit(b)`: DATA to `b`, CLK high, CLK low, recorded as one event (R160). -/
def State.emitBit (b : Bool) (s : State) : State :=
  let driven := { s with data := b }
  let high := { driven with clk := true }
  { high with clk := false, wire := high.wire ++ [.bit b] }

/-- `Wait(t)`: the lines hold their levels; recorded as one event (R165). -/
def State.holdWait (t : Nat) (s : State) : State := { s with wire := s.wire ++ [.wait t] }

/-- One event of the wire. -/
def State.emitEvent (s : State) : WireEvent → State
  | .bit b => s.emitBit b
  | .wait t => s.holdWait t

/-- DATA after some events, from its level before them. -/
def dataAfter : Bool → List WireEvent → Bool
  | d, [] => d
  | _, .bit b :: es => dataAfter b es
  | d, .wait _ :: es => dataAfter d es

/-- CLK after some events, from its level before them: every bit leaves it low (R160). -/
def clkAfter : Bool → List WireEvent → Bool
  | c, [] => c
  | _, .bit _ :: es => clkAfter false es
  | c, .wait _ :: es => clkAfter c es

/-- Emit a list of events, one after another. It is the fold of `emitEvent` over the list
(`emit_eq_foldl` in Laws/Wire.lean), written so that the trace is extended once. -/
def State.emit (es : List WireEvent) (s : State) : State :=
  { s with wire := s.wire ++ es, data := dataAfter s.data es, clk := clkAfter s.clk es }

/-- The bits of a frame, `f[23]` first (R161). -/
def frameBitList (f : FrameBits) : List Bool := (List.range Config.frameBits).map fun k => f.getLsbD (23 - k)

/-- `EmitFrame(rs, v)` as events: 24 bits, first bit first (R161). -/
def frameEvents (rs : Bool) (v : Byte) : List WireEvent := (frameBitList (frameOf rs v)).map .bit

/-- `WriteCmd(v) = EmitFrame(0, v)` (R162). -/
def writeCmd (v : Byte) : List WireEvent := frameEvents false v

/-- `WriteData(v) = EmitFrame(1, v)` (R162). -/
def writeData (v : Byte) : List WireEvent := frameEvents true v

/-! ## Taking a command's words -/

/-- How many operand words the decoder still waits for (R29). -/
def DecoderPos.owed : DecoderPos → Nat
  | .boundary => 0
  | .inside h ops => operandWords h - ops.length

/-- The words of a whole command have been received and the rest is still on the port: the decoder is at a command
boundary (R29, R76). -/
def State.afterCommand (rest : List Word) (s : State) : State := { s with decoder := .boundary, port := rest }

/-- No whole command is there: every word on the port is taken into the decoder's position and the block waits (R29,
R225). -/
def State.absorb (s : State) : State :=
  match s.decoder.words ++ s.port with
  | [] => { s with decoder := .boundary, port := [] }
  | h :: ops => { s with decoder := .inside h ops, port := [] }

end Sys2Proof.Machine
end

