-- ==== Sys2Proof/Machine/Framebuffer.lean ====
section
/-! DEFINITION. The framebuffer commands SET_PIXEL, GET_PIXEL, FILL and DRAW_RECT (spec/40_framebuffer.md). -/

namespace Sys2Proof.Machine

/-- SET_PIXEL (R103). -/
def execSetPixel (x y : Int) (v : Bool) (s : State) : Host.Outcome State Fault Refusal :=
  .next (s.pixWrite x y v)

/-- GET_PIXEL: `Result(zext_32(PixRead(x, y)))` (R102). -/
def execGetPixel (x y : Int) (s : State) : Host.Outcome State Fault Refusal :=
  .next (s.pushResult ((BitVec.ofBool (s.pixRead x y)).setWidth 32))

/-- FILL (R104). -/
def execFill (v : Bool) (s : State) : Host.Outcome State Fault Refusal :=
  .next (s.setFb fun _ => if v then 0xFF else 0x00)

/-- The pixels DRAW_RECT visits: the loops of R105, clipped to the screen first, as R253 allows (log 12). -/
def rectPixels (x0 y0 x1 y1 : Int) : List (Int × Int) :=
  (intSpan (max (min y0 y1) 0) (min (max y0 y1) (Config.H - 1))).flatMap fun y =>
    (intSpan (max (min x0 x1) 0) (min (max x0 x1) (Config.W - 1))).map fun x => (x, y)

/-- DRAW_RECT (R105). -/
def execDrawRect (x0 y0 x1 y1 : Int) (v : Bool) (s : State) : Host.Outcome State Fault Refusal :=
  .next (s.paint (rectPixels x0 y0 x1 y1) v)

end Sys2Proof.Machine
end

