-- ==== Sys2Proof/Machine/Glyph.lean ====
section
/-! DEFINITION. The font atlas indexer and the glyph rasterizer: DRAW_GLYPH and DRAW_TEXT (spec/41_glyph.md). The
functions take the atlas as an argument; the meanings give them the machine's (`Config.atlas`). -/

namespace Sys2Proof.Machine

/-- `GlyphRow(cp, r)`: the byte pair of a row, an empty row for a codepoint with no cell (R130). -/
def glyphRow (a : Config.Atlas) (cp r : Nat) : Byte × Byte :=
  if cp < a.nGlyphs then (a.byte (cellAddr cp r), a.byte (cellAddr cp r + 1)) else (0x00, 0x00)

/-- `GlyphBit(cp, r, c)`: byte 0 alone for a narrow glyph, the 16-bit row with byte 0 high for a wide one (R132). -/
def glyphBit (a : Config.Atlas) (cp r c : Nat) : Bool :=
  if cp < Config.narrowLimit then (glyphRow a cp r).1.getLsbD (7 - c)
  else ((glyphRow a cp r).1 ++ (glyphRow a cp r).2).getLsbD (15 - c)

/-- The pixels DRAW_GLYPH writes: the ink of the cell, rows in order, columns in order (R133). -/
def glyphPixels (a : Config.Atlas) (x y : Int) (cp : Nat) : List (Int × Int) :=
  (List.range Config.glyphRows).flatMap fun r =>
    ((List.range (glyphWidth cp)).filter fun c => glyphBit a cp r c).map fun (c : Nat) => (x + (c : Int), y + (r : Int))

/-- `DrawGlyph(x, y, cp, v)` (R133). -/
def State.drawGlyph (a : Config.Atlas) (x y : Int) (cp : Nat) (v : Bool) (s : State) : State :=
  s.paint (glyphPixels a x y cp) v

/-- The loop of DRAW_TEXT: `x` the text's starting x, `(cx, cy)` the cursor, exact integers (R134, R136). -/
def State.drawTextFrom (a : Config.Atlas) (x : Int) (v : Bool) : (cx cy : Int) → List Nat → State → State
  | _, _, [], s => s
  | cx, cy, cp :: cps, s =>
    if cp = Config.newline then State.drawTextFrom a x v x (cy + Config.lineAdvance) cps s
    else State.drawTextFrom a x v (cx + glyphWidth cp) cy cps (s.drawGlyph a cx cy cp v)

/-- DRAW_GLYPH (R133). -/
def execDrawGlyph (x y : Int) (cp : Nat) (v : Bool) (s : State) : Host.Outcome State Fault Refusal :=
  .next (s.drawGlyph Config.atlas x y cp v)

/-- DRAW_TEXT (R134). -/
def execDrawText (x y : Int) (cps : List Nat) (v : Bool) (s : State) : Host.Outcome State Fault Refusal :=
  .next (s.drawTextFrom Config.atlas x v x y cps)

end Sys2Proof.Machine
end

