-- ==== Sys2Proof/Machine/Protocol.lean ====
section
/-! DEFINITION. The display protocol serializer: SETUP, COMMIT_DIFF, COMMIT_FULL, and the two wire frames as operations
of their own (spec/42_protocol.md). The functions take the controller's command bytes as an argument; the meanings give
them the machine's (`Config.commandBytes`). -/

namespace Sys2Proof.Machine

/-- What SETUP sends: two command frames, the wait, two command frames (R170). -/
def setupEvents (k : Config.CommandBytes) (t : Nat) : List WireEvent :=
  writeCmd k.basic8 ++ writeCmd k.clear ++ [.wait t] ++ writeCmd k.ext ++ writeCmd k.gfxOn

/-- `Traverse`: bank by bank, row by row, word column by word column (R171). Irreducible, so that no definitional check
lists the words; `traverse_eq` in Laws/Wire.lean is its lemma. -/
@[irreducible] def traverse : List Nat :=
  (List.range Config.banks).flatMap fun bank =>
    (List.range Config.bankRows).flatMap fun rb =>
      (List.range Config.rowWords).map fun c => (Config.bankRows * bank + rb) * Config.rowWords + c

/-- The byte of an address command, `CMD_ADDR + a` (R85, R172; on eight bits, log 7). -/
def addrByte (k : Config.CommandBytes) (a : Nat) : Byte := k.addr + BitVec.ofNat 8 a

/-- `SendWord(w)`: row address, column address, left byte, right byte (R172). -/
def sendWord (k : Config.CommandBytes) (s : State) (w : Nat) : List WireEvent :=
  writeCmd (addrByte k (addrOf (wordRow w) (wordCol w)).1) ++ writeCmd (addrByte k (addrOf (wordRow w) (wordCol w)).2) ++
    writeData (s.fbByte (2 * w)) ++ writeData (s.fbByte (2 * w + 1))

/-- Word `w` differs between the framebuffer and the last-sent copy (R173). -/
def State.differs (s : State) (w : Nat) : Bool :=
  s.fbByte (2 * w) != s.cbByte (2 * w) || s.fbByte (2 * w + 1) != s.cbByte (2 * w + 1)

/-- A commit that sends the given words, then makes the copy current (R174, R176). -/
def State.commit (k : Config.CommandBytes) (ws : List Nat) (s : State) : State :=
  ((s.emit (ws.flatMap (sendWord k s))).copyFbToCb).setFlag .synced

/-- SETUP (R170). -/
def execSetup (s : State) : Host.Outcome State Fault Refusal :=
  .next (((s.emit (setupEvents Config.commandBytes Config.clearWait)).setFlag .init).clearFlag .synced)

/-- COMMIT_DIFF: refused before SETUP; all words when there is no valid last-sent copy, else those that differ (R174,
R175). -/
def execCommitDiff (s : State) : Host.Outcome State Fault Refusal :=
  if s.flag .init then
    .next (s.commit Config.commandBytes (traverse.filter fun w => !s.flag .synced || s.differs w))
  else .next (s.raise .orderError)

/-- COMMIT_FULL: refused before SETUP; all words (R175, R176). -/
def execCommitFull (s : State) : Host.Outcome State Fault Refusal :=
  if s.flag .init then .next (s.commit Config.commandBytes traverse)
  else .next (s.raise .orderError)

/-- FRAME_CMD: `WriteCmd(v)` (R162; log 2). -/
def execFrameCmd (v : Byte) (s : State) : Host.Outcome State Fault Refusal := .next (s.emit (writeCmd v))

/-- FRAME_DATA: `WriteData(v)` (R162; log 2). -/
def execFrameData (v : Byte) (s : State) : Host.Outcome State Fault Refusal := .next (s.emit (writeData v))

end Sys2Proof.Machine
end

