-- ==== Sys2Proof/Machine/Reserved.lean ====
section
/-! DEFINITION. The reserved operations: one word each, `raise Illegal`, whatever the header's other bits
(spec/30_encoding.md R78, spec/60_exceptions.md R211). -/

namespace Sys2Proof.Machine

/-- OP = 0x0 (R78, R211). -/
def execReserved0 (_rest : BitVec 28) (s : State) : Host.Outcome State Fault Refusal := .next (s.raise .illegal)

/-- OP = 0x7 (R78, R211). -/
def execReserved7 (_rest : BitVec 28) (s : State) : Host.Outcome State Fault Refusal := .next (s.raise .illegal)

/-- OP = 0xC to 0xF (R78, R211). -/
def execReservedC (_rest : BitVec 30) (s : State) : Host.Outcome State Fault Refusal := .next (s.raise .illegal)

end Sys2Proof.Machine
end

