-- ==== Sys2Proof/Machine/StatusCmd.lean ====
section
/-! DEFINITION. READ_STATUS (spec/43_status.md). -/

namespace Sys2Proof.Machine

/-- READ_STATUS: `Result(STATUS)`; reading clears nothing (R200). -/
def execReadStatus (s : State) : Host.Outcome State Fault Refusal := .next (s.pushResult s.status)

end Sys2Proof.Machine
end

