-- ==== Sys2Proof/Machine/Dispatch.lean ====
section
/-! DEFINITION. One arm per operation, each a direct call of its meaning. -/

namespace Sys2Proof.Machine

/-- What each operation does (R75, R78, R162). -/
def exec (i : Instr) (s : State) : Host.Outcome State Fault Refusal :=
  match i with
  | .setPixel x y v => Sys2Proof.Machine.execSetPixel x y v s
  | .getPixel x y => Sys2Proof.Machine.execGetPixel x y s
  | .fill v => Sys2Proof.Machine.execFill v s
  | .drawRect x0 y0 x1 y1 v => Sys2Proof.Machine.execDrawRect x0 y0 x1 y1 v s
  | .drawGlyph x y cp v => Sys2Proof.Machine.execDrawGlyph x y cp v s
  | .drawText x y cps v => Sys2Proof.Machine.execDrawText x y cps v s
  | .setup => Sys2Proof.Machine.execSetup s
  | .commitDiff => Sys2Proof.Machine.execCommitDiff s
  | .commitFull => Sys2Proof.Machine.execCommitFull s
  | .readStatus => Sys2Proof.Machine.execReadStatus s
  | .frameCmd v => Sys2Proof.Machine.execFrameCmd v s
  | .frameData v => Sys2Proof.Machine.execFrameData v s
  | .reserved0 rest => Sys2Proof.Machine.execReserved0 rest s
  | .reserved7 rest => Sys2Proof.Machine.execReserved7 rest s
  | .reservedC rest => Sys2Proof.Machine.execReservedC rest s

end Sys2Proof.Machine
end

