-- ==== Sys2Proof/Machine/Step.lean ====
section
/-! DEFINITION. One step: take one whole command from the command stream and run it (spec/30_encoding.md R76,
spec/20_memory.md R58, R59), raise Illegal for an illegal one (R211), or wait when there is none (R29, R225). -/

namespace Sys2Proof.Machine

/-- The command stream's share of a step: the words of the decoder's position and the port, decoded. -/
def State.fetch (s : State) : Fetched := decodeStream (s.decoder.words ++ s.port)

/-- One step. A frame put before the serializer directly (the model's own field, log 2) is sent first; otherwise the
next command of the stream is run when all its words are there. -/
def step (s : State) : Host.Outcome State Fault Refusal :=
  match s.frames with
  | f :: fs =>
    match decodeFrame f with
    | some i => exec i { s with frames := fs }
    | none => .fault (.notAFrame f)
  | [] =>
    match s.fetch with
    | .waiting => .next s.absorb
    | .illegal _ rest => .next ((s.afterCommand rest).raise .illegal)
    | .command i rest => exec i (s.afterCommand rest)

/-- `s` with one row's instruction, given as a number in the opcode table's numbering, where the next step takes it: a
24-bit row before the serializer, a command's words at the head of the port with the decoder at a command boundary. -/
def State.withFetchWord (s : State) (nbits w : Nat) : State :=
  if nbits ≤ 24 then { s with frames := BitVec.ofNat 24 w :: s.frames }
  else { s with frames := [], decoder := .boundary, port := tableWords w ++ s.port }

end Sys2Proof.Machine
end

