-- ==== Sys2Proof/Machine/Assembly.lean ====
section
/-! DEFINITION. The assembler's statements (spec/30_encoding.md R86, R87): a command, the string form of DRAW_TEXT, and
raw words; how each is written, and the command words it stands for. -/

namespace Sys2Proof.Machine

/-- One assembler statement (R86). -/
inductive AsmStatement where
  | command (i : Instr)
  /-- `DRAW_TEXT x, y, "s", v` (R87) -/
  | textString (x y : Int) (s : String) (v : Bool)
  /-- `.word w0, w1, ...` -/
  | word (ws : List Word)
  deriving DecidableEq, Repr

/-- The expansion of the string form: the Unicode scalar values of the characters in order (R87). -/
def expandText (x y : Int) (s : String) (v : Bool) : Instr := .drawText x y (s.toList.map Char.toNat) v

/-- The command words of a statement; none for a command whose operands do not fit, for a text of more than 65535
characters (R87), and for a wire frame, which is no command (R75). -/
def AsmStatement.words : AsmStatement → Option (List Word)
  | .command i =>
    match encode i with
    | .command ws => if i.wellFormed then some ws else none
    | .frame _ => none
  | .textString x y s v =>
    if (expandText x y s v).wellFormed then some (commandWords (expandText x y s v)) else none
  | .word ws => some ws

/-- A value operand as it is written: `0` or `1`. -/
def asmValue (v : Bool) : String := if v then "1" else "0"

/-- Operands as they are written, separated by commas. -/
def asmList (xs : List String) : String := ", ".intercalate xs

/-- How a command is written (R86); an operation that is no command of the syntax has no text of its own. -/
def asmCommand : Instr → Option String
  | .setPixel x y v => some ("SET_PIXEL  " ++ asmList [toString x, toString y, asmValue v])
  | .getPixel x y => some ("GET_PIXEL  " ++ asmList [toString x, toString y])
  | .fill v => some ("FILL       " ++ asmValue v)
  | .drawRect x0 y0 x1 y1 v =>
    some ("DRAW_RECT  " ++ asmList [toString x0, toString y0, toString x1, toString y1, asmValue v])
  | .drawGlyph x y cp v => some ("DRAW_GLYPH " ++ asmList [toString x, toString y, toString cp, asmValue v])
  | .drawText x y cps v =>
    some ("DRAW_TEXT  " ++ asmList [toString x, toString y, "[" ++ asmList (cps.map toString) ++ "]", asmValue v])
  | .setup => some "SETUP"
  | .commitDiff => some "COMMIT_DIFF"
  | .commitFull => some "COMMIT_FULL"
  | .readStatus => some "READ_STATUS"
  | .frameCmd _ => none
  | .frameData _ => none
  | .reserved0 _ => none
  | .reserved7 _ => none
  | .reservedC _ => none

end Sys2Proof.Machine
end

