-- ==== Sys2Proof/Machine/Display.lean ====
section
/-! DEFINITION. The display image `DI` (spec/42_protocol.md R180): an observation of the controller computed from the
wire trace alone, beside the block and not part of its state (spec/10_state.md R32). It assumes every frame is received
as sent (log 9). -/

namespace Sys2Proof.Machine

/-- What has been received, frame by frame. -/
inductive Received where
  | cmd (v : Byte)
  | data (v : Byte)
  | pause
  | junk
  deriving DecidableEq, Repr

/-- An observer of the wire: the bits of a frame not yet complete, the frames of a group not yet complete, and the
image so far (`none` is `unknown`). -/
structure Observer where
  bits : List Bool
  group : List Received
  image : Nat → Nat → Option (BitVec 16)

/-- At reset nothing is known of the image (R180, R240). -/
def Observer.start : Observer := ⟨[], [], fun _ _ => none⟩

/-- A frame from its bits, the first bit in bit 23 (R83, R84). -/
def receivedFrame (bits : List Bool) : Received :=
  match decodeFrame (BitVec.ofNat 24 (bits.foldl (fun n b => 2 * n + b.toNat) 0)) with
  | some (.frameCmd v) => .cmd v
  | some (.frameData v) => .data v
  | _ => .junk

/-- The effect of a complete group on the image (R180): a word transfer sets its address, a SETUP makes all unknown.
Any other group is left as it is: the block sends none. -/
def Observer.settle (k : Config.CommandBytes) (o : Observer) : Observer :=
  match o.group with
  | [.cmd a, .cmd b, .data d0, .data d1] =>
    ⟨o.bits, [], fun ra ca =>
      if addrByte k ra = a ∧ addrByte k ca = b ∧ ra < 32 ∧ ca < 16 then some (d0 ++ d1) else o.image ra ca⟩
  | [.cmd a, .cmd b, .pause, .cmd c, .cmd d] =>
    if a = k.basic8 ∧ b = k.clear ∧ c = k.ext ∧ d = k.gfxOn then ⟨o.bits, [], fun _ _ => none⟩ else o
  | _ => o

/-- One event of the wire. -/
def Observer.take (k : Config.CommandBytes) (o : Observer) : WireEvent → Observer
  | .bit b =>
    if o.bits.length + 1 < Config.frameBits then { o with bits := o.bits ++ [b] }
    else Observer.settle k { o with bits := [], group := o.group ++ [receivedFrame (o.bits ++ [b])] }
  | .wait _ => Observer.settle k { o with group := o.group ++ [.pause] }

/-- The observer after a wire trace. -/
def observe (k : Config.CommandBytes) (es : List WireEvent) : Observer := es.foldl (Observer.take k) Observer.start

/-- `DI(ra, ca)` after a wire trace (R180). -/
def displayImage (k : Config.CommandBytes) (es : List WireEvent) (ra ca : Nat) : Option (BitVec 16) :=
  (observe k es).image ra ca

/-- Word `w` of the framebuffer as a 16-bit value, left byte high (R49). -/
def State.fbWord (s : State) (w : Nat) : BitVec 16 := s.fbByte (2 * w) ++ s.fbByte (2 * w + 1)

/-- Word `w` of the committed buffer as a 16-bit value, left byte high (R49). -/
def State.cbWord (s : State) (w : Nat) : BitVec 16 := s.cbByte (2 * w) ++ s.cbByte (2 * w + 1)

/-- `DI` at the controller address of word `w` (R51, R180). -/
def State.shown (s : State) (w : Nat) : Option (BitVec 16) :=
  displayImage Config.commandBytes s.wire (addrOf (wordRow w) (wordCol w)).1 (addrOf (wordRow w) (wordCol w)).2

end Sys2Proof.Machine
end

