-- ==== Sys2Proof/Machine/Environment.lean ====
section
/-! DEFINITION. What the outside does to the block between steps: the host sends command words and takes result words
(spec/00_scope.md R2, spec/10_state.md R27, spec/70_reset_and_hazards.md R248), and the block is reset (R240, R242). -/

namespace Sys2Proof.Machine

/-- The host sends command words: they wait on the port behind those already there (R248). -/
def State.hostSends (ws : List Word) (s : State) : State := { s with port := s.port ++ ws }

/-- The host takes the word at the head of the result queue, if there is one (R27). -/
def State.hostTakes (s : State) : Option (Word × State) :=
  match s.results with
  | [] => none
  | w :: ws => some (w, { s with results := ws })

/-- A reset of a block that has been running (R240): as after the first reset, with fresh free draws in both buffers.
Words still on the port are the host's and stay there (log 10). -/
def State.warmReset (s : State) : State := { State.reset with port := s.port, draw := s.draw + 1 }

/-- A reset that lands inside the command the next step runs, after `k` of its wire events (R242): what the controller
has been sent up to the reset, and the block after it. The trace may end inside a frame. -/
def State.abandon (s : State) (k : Nat) : Option (List WireEvent × State) :=
  match step s with
  | .next t => some (t.wire.take (s.wire.length + k), t.warmReset)
  | .fault _ => none
  | .refused _ => none

end Sys2Proof.Machine
end

