-- ==== Sys2Proof/Safety.lean ====
section
/-! DEFINITION. What counts as a safe run (spec/60_exceptions.md R217), the invariants of the block, and the states a
run can reach, in the terms the statements use. -/

namespace Sys2Proof.Machine

/-- A faulted run (R217): an illegal command or a commit before SETUP has been recorded since reset. -/
def State.faulted (s : State) : Bool := s.flag .ill || s.flag .order

/-- A run that can be claimed about (R217): neither sticky bit is set. -/
def State.safe (s : State) : Bool := !s.faulted

/-- The values `STATUS` can hold (R25, R201): bits 31:4 zero, and SYNCED only with INIT. -/
abbrev LegalStatus (w : Word) : Prop := w &&& 0xFFFFFFF0#32 = 0#32 ∧ (w.getLsbD 1 = true → w.getLsbD 0 = true)

/-- Inside a command some operand word is still owed (R29). -/
abbrev DecoderPos.owes : DecoderPos → Prop
  | .boundary => True
  | .inside h ops => ops.length < operandWords h

/-- What every state of the block between two steps satisfies. -/
structure State.Inv (s : State) : Prop where
  /-- `FB` is in canonical form and has only the bytes 0 to 1023 (R21, R45) -/
  fbWf : s.fb.wf = true
  /-- so is `CB` (R22, R45) -/
  cbWf : s.cb.wf = true
  /-- `STATUS` is legal (R25, R201) -/
  status : LegalStatus s.status
  /-- DATA is 0 at a command boundary (R35) -/
  data : s.data = false
  /-- CLK is 0 between bits (R28) -/
  clk : s.clk = false
  /-- the decoder's position is one of R29 -/
  decoder : s.decoder.owes

/-- What relates the wire trace to the state (R166, R181): nothing is put before the serializer directly, the trace
ends between two groups of frames, and when SYNCED is set the display image is the committed buffer. -/
structure State.DisplayInv (s : State) : Prop where
  frames : s.frames = []
  bits : (observe Config.commandBytes s.wire).bits = []
  group : (observe Config.commandBytes s.wire).group = []
  shown : s.flag .synced = true → ∀ w, w < 512 → s.shown w = some (s.cbWord w)

/-- The states the block can be in: from a reset, by steps and by what the outside does between them. -/
inductive Reachable : State → Prop where
  | reset (n : Nat) : Reachable { State.reset with draw := n }
  | step {s t : State} : Reachable s → Machine.step s = .next t → Reachable t
  | sends {s : State} (ws : List Word) : Reachable s → Reachable (s.hostSends ws)
  | takes {s t : State} {w : Word} : Reachable s → s.hostTakes = some (w, t) → Reachable t
  | resets {s : State} : Reachable s → Reachable s.warmReset

/-! ## Vocabulary of the statements about drawing and about sequences of commands -/

/-- The ink of the cell of `cp` at row `r`, column `c`, byte by byte (R130, R131, R132). -/
def InkAt (a : Config.Atlas) (cp r c : Nat) : Prop :=
  cp < a.nGlyphs ∧
    ((c < 8 ∧ (a.byte (cp * 32 + 2 * r)).getLsbD (7 - c) = true) ∨
      (128 ≤ cp ∧ 8 ≤ c ∧ c < 16 ∧ (a.byte (cp * 32 + 2 * r + 1)).getLsbD (15 - c) = true))

/-- Pixel `(px, py)` is ink of the glyph of `cp` drawn at `(x, y)` (R133). -/
def GlyphPixel (a : Config.Atlas) (x y : Int) (cp : Nat) (px py : Int) : Prop :=
  ∃ r c : Nat, r < 16 ∧ InkAt a cp r c ∧ px = x + c ∧ py = y + r

/-- The cursor of a text after the codepoints `pre` (R134): x after the glyphs since the last newline, y after all the
newlines. -/
def textCursor (x y : Int) (pre : List Nat) : Int × Int :=
  (x + (((pre.reverse.takeWhile fun cp => cp != 0x0A).map fun cp => if cp < 128 then 8 else 16).sum : Nat),
    y + 16 * (pre.count 0x0A : Nat))

/-- Pixel `(px, py)` is ink of one of the glyphs of a text drawn at `(x, y)` (R134, R137). -/
def TextPixel (a : Config.Atlas) (x y : Int) (cps : List Nat) (px py : Int) : Prop :=
  ∃ pre cp post, cps = pre ++ cp :: post ∧ cp ≠ 0x0A ∧
    GlyphPixel a (textCursor x y pre).1 (textCursor x y pre).2 cp px py

/-- The DRAW_GLYPH commands a DRAW_TEXT performs, each at its cursor (R137). -/
def textGlyphs (x y : Int) (cps : List Nat) (v : Bool) : List Instr :=
  (List.range cps.length).filterMap fun k =>
    match cps[k]? with
    | some cp =>
      if cp = 0x0A then none
      else some (.drawGlyph (textCursor x y (cps.take k)).1 (textCursor x y (cps.take k)).2 cp v)
    | none => none

/-- The drawing commands: the five that write `FB` (R23). -/
def isDrawing : Instr → Bool
  | .setPixel .. | .fill .. | .drawRect .. | .drawGlyph .. | .drawText .. => true
  | .getPixel .. | .setup | .commitDiff | .commitFull | .readStatus => false
  | .frameCmd .. | .frameData .. | .reserved0 .. | .reserved7 .. | .reservedC .. => false

/-- Operations one after another, each on the state the one before left (R59). -/
def execAll : List Instr → State → Host.Outcome State Fault Refusal
  | [], s => .next s
  | i :: is, s =>
    match exec i s with
    | .next t => execAll is t
    | .fault f => .fault f
    | .refused r => .refused r

end Sys2Proof.Machine
end

