-- ==== Sys2Proof/Certificates/Slice0/Obligations.lean ====
section
/-! DEFINITION. The statements for the provers, each with the rule of spec/ or the sentence it formalises. Where a rule is
marked as the spec's own inference, or the statement rests on a convention of the model, the docstring says so. -/

open Sys2Proof Sys2Proof.Machine

/-! ## Encoding -/

/-- Decoding the encoding of a well-formed operation gives it back, every operand at every value it can have (R72 to
R74, R81, R83). -/
def Obligations.DecodeOfEncodeIsTheInstruction : Prop :=
  ∀ i : Instr, i.wellFormed = true → decode (encode i) = .ok i

/-- Every word list and every frame the decoder accepts is the encoding of the well-formed operation it reads: no bit is
ignored and each encoding has one meaning (R76, R78, R79). -/
def Obligations.EncodeOfDecodeIsTheEncoding : Prop :=
  ∀ (c : Encoded) (i : Instr), decode c = .ok i → i.wellFormed = true ∧ encode i = c

/-- Words written out from the encodings of R72 to R75 and R82 decode to the operations they stand for (R81's examples
among them). -/
def Obligations.SpecWordsDecodeToTheirInstructions : Prop :=
  decode (.command [0x18000000, 0x003F007F]) = .ok (.setPixel 127 63 true) ∧
  decode (.command [0x18000000, 0x0000FFFF]) = .ok (.setPixel (-1) 0 true) ∧
  decode (.command [0x20000000, 0x00020003]) = .ok (.getPixel 3 2) ∧
  decode (.command [0x48000000, 0x0005000A, 0x00020003]) = .ok (.drawRect 10 5 3 2 true) ∧
  decode (.command [0x68000003, 0x0000000A, 0x00000041, 0x0000000A, 0x00000041]) =
    .ok (.drawText 10 0 [0x41, 0x0A, 0x41] true) ∧
  decode (.command [0x90000000]) = .ok .commitDiff ∧
  decode (.command [0x90000001]) = .error .unusedLengthSet ∧
  decode (.frame 0xF83000) = .ok (.frameCmd 0x30) ∧
  decode (.frame 0xFAA050) = .ok (.frameData 0xA5)

/-- The length of a command in words, from its header's bits alone (the spec's own inference R77). -/
def Obligations.CommandLengthByOperation : Prop :=
  ∀ h : Word, ∀ op len : Nat, op = h.toNat / 2 ^ 28 → len = h.toNat % 2 ^ 16 →
    commandLength h =
      if op = 1 ∨ op = 2 then 2 else if op = 4 ∨ op = 5 then 3 else if op = 6 then 2 + len else 1

/-- The decoder accepts a header, with some operands, exactly when it matches a row of the opcode table, and no header
matches two rows (opcode_table.json; R76, R78). -/
def Obligations.AcceptedHeadersAreTheOpcodeTable : Prop :=
  (∀ h : Word, (∃ ops i, decodeCommand h ops = .ok i) ↔ ∃ r ∈ opcodeRows, h &&& r.mask = r.pattern) ∧
  ∀ h : Word, ∀ r ∈ opcodeRows, ∀ r' ∈ opcodeRows,
    h &&& r.mask = r.pattern → h &&& r'.mask = r'.pattern → r = r'

/-- R87: the string form of DRAW_TEXT is written for any string of at most 65535 characters, as the DRAW_TEXT of their
Unicode scalar values in order, and for no longer one. -/
def Obligations.StringTextIsItsCodepoints : Prop :=
  ∀ (x y : Int) (s : String) (v : Bool), coordOk x → coordOk y →
    (s.length ≤ 65535 →
      ∃ ws, (AsmStatement.textString x y s v).words = some ws ∧
        decode (.command ws) = .ok (.drawText x y (s.toList.map fun c => c.val.toNat) v)) ∧
    (65535 < s.length → (AsmStatement.textString x y s v).words = none)

/-! ## The step -/

/-- R211, R76: a command with an illegal header (a reserved OP, or an assigned OP with a nonzero RSV, an unused V set or
an unused LEN nonzero) has its whole length consumed, sets ILL, and changes nothing else. -/
def Obligations.IllegalHeaderSetsIllAndConsumesItsLength : Prop :=
  ∀ (s : State) (h : Word) (ops rest : List Word) (op : Nat), s.frames = [] →
    s.decoder.words ++ s.port = h :: (ops ++ rest) → ops.length + 1 = commandLength h →
    op = h.toNat / 2 ^ 28 →
    (op ∈ [0x0, 0x7, 0xC, 0xD, 0xE, 0xF] ∨ h.toNat / 2 ^ 16 % 2 ^ 11 ≠ 0 ∨
      (h.toNat / 2 ^ 27 % 2 = 1 ∧ op ∉ [0x1, 0x3, 0x4, 0x5, 0x6]) ∨ (h.toNat % 2 ^ 16 ≠ 0 ∧ op ≠ 0x6)) →
    step s = .next { s with decoder := .boundary, port := rest, status := s.status ||| 0x00000004#32 }

/-- A step at a whole encoded command runs the operation it decodes to, its words consumed and the decoder at a command
boundary; a step at a frame put before the serializer (the model's own field, log 2) runs that frame's operation. -/
def Obligations.StepRunsTheDecodedInstruction : Prop :=
  (∀ (s : State) (i : Instr) (ws rest : List Word), s.frames = [] → decode (.command ws) = .ok i →
    s.decoder.words ++ s.port = ws ++ rest →
    step s = exec i { s with decoder := .boundary, port := rest }) ∧
  ∀ (s : State) (i : Instr) (f : FrameBits) (fs : List FrameBits), decode (.frame f) = .ok i → s.frames = f :: fs →
    step s = exec i { s with frames := fs }

/-- R29: inside a command whose operand words are not all there no state changes but the decoder's position; a whole
command, legal or not, leaves the decoder at a command boundary with exactly its words gone from the stream. That a step
with no whole command there answers a next state is the model's choice (log 13), and so is that one step moves every word
at hand from the port into the decoder's position (log 1). -/
def Obligations.DecoderPositionFollowsTheStream : Prop :=
  ∀ s : State, s.frames = [] →
    (s.decoder.words ++ s.port = [] → step s = .next s) ∧
    (∀ h ops, s.decoder.words ++ s.port = h :: ops → ops.length + 1 < commandLength h →
      step s = .next { s with decoder := .inside h ops, port := [] }) ∧
    ∀ h ops rest, s.decoder.words ++ s.port = h :: (ops ++ rest) → ops.length + 1 = commandLength h →
      ∃ t, step s = .next t ∧ t.decoder = .boundary ∧ t.port = rest

/-- A command whose words arrive in two pieces, with a step between them, has the effect it has when they arrive at
once (R29; the model's choice of step, log 1). -/
def Obligations.ArrivalInPiecesChangesNothing : Prop :=
  ∀ (s t : State) (ws us : List Word), s.frames = [] →
    (s.decoder.words ++ s.port ++ ws = [] ∨
      ∃ h ops, s.decoder.words ++ s.port ++ ws = h :: ops ∧ ops.length + 1 < commandLength h) →
    step (s.hostSends ws) = .next t → step (t.hostSends us) = step (s.hostSends (ws ++ us))

/-- Every step of a block with no frame put before its serializer answers a next state, and sends at most 49152 events
(R215: an error is no stop; the bound is the spec's own inference R253; that a waiting step answers a next state is the
model's choice, log 13). -/
def Obligations.EveryStepCompletes : Prop :=
  ∀ s : State, s.frames = [] → ∃ t, step s = .next t ∧ t.wire.length ≤ s.wire.length + 49152

/-- A 24-bit pattern that is neither kind of frame is sent by no rule (R84); put before the serializer it stops the step
by name (the model's choice, log 2). -/
def Obligations.PatternThatIsNoFrameFaults : Prop :=
  ∀ (s : State) (f : FrameBits) (fs : List FrameBits), s.frames = f :: fs →
    f &&& 0xFF0F0F#24 ≠ 0xF80000#24 → f &&& 0xFF0F0F#24 ≠ 0xFA0000#24 → step s = .fault (.notAFrame f)

/-- R36: no operation is a control transfer: none moves the decoder's position or the words on the port, and none
touches the model's own fields. -/
def Obligations.NoOperationMovesTheCommandStream : Prop :=
  ∀ (i : Instr) (s : State), ∃ t, exec i s = .next t ∧
    t.decoder = s.decoder ∧ t.port = s.port ∧ t.frames = s.frames ∧ t.draw = s.draw

/-- R59: commands whose words are on the port take effect one at a time, in the order their words arrive. The port, and that
one step runs one whole command of it, are the model's choice (log 1). -/
def Obligations.CommandsRunOneAtATimeInOrder : Prop :=
  ∀ (is : List Instr) (s : State),
    (∀ i ∈ is, i.wellFormed = true ∧ ∃ ws, encode i = .command ws) →
    s.frames = [] → s.decoder = .boundary → s.port = is.flatMap commandWords →
    Host.Core.run Sys2Proof.core is.length s = execAll is { s with port := [] }

/-- Any sequence of operations completes (R253 of each, the spec's own inference). -/
def Obligations.AnySequenceOfOperationsCompletes : Prop :=
  ∀ (is : List Instr) (s : State), ∃ t, execAll is s = .next t ∧ s.wire <+: t.wire ∧ s.results <+: t.results

/-! ## Errors and STATUS -/

/-- The reserved operations set ILL and change nothing else (R78, R211). -/
def Obligations.ReservedOperationsSetIll : Prop :=
  ∀ (s : State) (a : BitVec 28) (b : BitVec 28) (c : BitVec 30),
    exec (.reserved0 a) s = .next { s with status := s.status ||| 0x00000004#32 } ∧
    exec (.reserved7 b) s = .next { s with status := s.status ||| 0x00000004#32 } ∧
    exec (.reservedC c) s = .next { s with status := s.status ||| 0x00000004#32 }

/-- R213, R175: with INIT = 0 either commit sets ORDER and does nothing else; no other operation changes ORDER. -/
def Obligations.CommitBeforeSetupSetsOrderOnly : Prop :=
  (∀ s : State, s.status.getLsbD 0 = false →
    exec .commitDiff s = .next { s with status := s.status ||| 0x00000008#32 } ∧
    exec .commitFull s = .next { s with status := s.status ||| 0x00000008#32 }) ∧
  ∀ (i : Instr) (s t : State), exec i s = .next t → i ≠ .commitDiff → i ≠ .commitFull →
    t.status.getLsbD 3 = s.status.getLsbD 3

/-- One step sets at most one of ILL and ORDER, and an illegal commit header sets ILL and leaves ORDER, whatever INIT
holds (the spec's own inference R216). -/
def Obligations.OneCommandRaisesAtMostOneError : Prop :=
  (∀ s t : State, step s = .next t →
    t.status.getLsbD 2 = s.status.getLsbD 2 ∨ t.status.getLsbD 3 = s.status.getLsbD 3) ∧
  ∀ (s : State) (h : Word) (rest : List Word), s.frames = [] → s.decoder.words ++ s.port = h :: rest →
    (h.toNat / 2 ^ 28 = 0x9 ∨ h.toNat / 2 ^ 28 = 0xA) → h.toNat % 2 ^ 28 ≠ 0 →
    ∃ t, step s = .next t ∧ t.status.getLsbD 2 = true ∧ t.status.getLsbD 3 = s.status.getLsbD 3

/-- R25: every bit of STATUS after every operation, after a step that finds an illegal command or none, and after a reset:
INIT, SYNCED, ILL and ORDER are set and cleared by what the table names, and bits 31:4 never change. -/
def Obligations.StatusBitsChangeAsTheTableSays : Prop :=
  (∀ (i : Instr) (s : State), ∃ t, exec i s = .next t ∧
    t.flag .init = (s.flag .init || decide (i = .setup)) ∧
    t.flag .synced =
      (if i = .setup then false
       else s.flag .synced || (s.flag .init && (decide (i = .commitDiff) || decide (i = .commitFull)))) ∧
    (t.flag .ill = true ↔ s.flag .ill = true ∨
      (∃ r, i = .reserved0 r) ∨ (∃ r, i = .reserved7 r) ∨ ∃ r, i = .reservedC r) ∧
    t.flag .order =
      (s.flag .order || (!s.flag .init && (decide (i = .commitDiff) || decide (i = .commitFull)))) ∧
    t.status &&& 0xFFFFFFF0#32 = s.status &&& 0xFFFFFFF0#32) ∧
  (∀ (s : State) (e : DecodeError) (rest : List Word), s.frames = [] → s.fetch = .illegal e rest →
    ∃ t, step s = .next t ∧ t.status = s.status ||| 0x00000004#32) ∧
  (∀ s t : State, s.frames = [] → s.fetch = .waiting → step s = .next t → t.status = s.status) ∧
  State.reset.status = 0 ∧ ∀ s : State, s.warmReset.status = 0

/-- R217, R26: no step clears ILL or ORDER, a reset does, and a run is safe exactly when neither is set. -/
def Obligations.ErrorBitsAreSticky : Prop :=
  (∀ s t : State, step s = .next t →
    (s.flag .ill = true → t.flag .ill = true) ∧ (s.flag .order = true → t.flag .order = true)) ∧
  (∀ s : State, s.warmReset.flag .ill = false ∧ s.warmReset.flag .order = false) ∧
  ∀ s : State, s.safe = true ↔ s.flag .ill = false ∧ s.flag .order = false

/-- READ_STATUS appends STATUS to the result queue and changes nothing else (R200). -/
def Obligations.ReadStatusAppendsStatus : Prop :=
  ∀ s : State, exec .readStatus s = .next { s with results := s.results ++ [s.status] }

/-- The values READ_STATUS can return are exactly the legal ones (the spec's own inference R201). -/
def Obligations.ReadStatusReturnsExactlyTheLegalValues : Prop :=
  ∀ w : Word, (w &&& 0xFFFFFFF0#32 = 0#32 ∧ (w.getLsbD 1 = true → w.getLsbD 0 = true)) ↔
    ∃ s, Reachable s ∧ exec .readStatus s = .next { s with results := s.results ++ [w] }

/-- GET_PIXEL and READ_STATUS append exactly one word, no other operation appends one, and neither does an illegal
command; the host takes the oldest word first; the queue is empty at reset and no operation looks at it (R27). -/
def Obligations.ResultsComeFromGetPixelAndReadStatusOnly : Prop :=
  (∀ (i : Instr) (s : State), ∃ t, exec i s = .next t ∧
    (((∃ x y, i = .getPixel x y) ∨ i = .readStatus) → ∃ w, t.results = s.results ++ [w]) ∧
    ((∀ x y, i ≠ .getPixel x y) → i ≠ .readStatus → t.results = s.results)) ∧
  (∀ (s t : State) (e : DecodeError) (rest : List Word), s.frames = [] → s.fetch = .illegal e rest →
    step s = .next t → t.results = s.results) ∧
  (∀ (s : State) (w : Word) (q : List Word), s.results = w :: q →
    s.hostTakes = some (w, { s with results := q })) ∧
  (∀ (i : Instr) (s t : State) (q : List Word), exec i s = .next t →
    exec i { s with results := q ++ s.results } = .next { t with results := q ++ t.results }) ∧
  State.reset.results = []

/-! ## The framebuffer -/

/-- Byte `16y + k` holds pixels `8k` to `8k + 7` of row `y`, pixel `8k + j` in bit `7 - j`, and every bit of the 1024
bytes is exactly one in-bounds pixel (R46; R48 is the spec's own inference). -/
def Obligations.PixelLayoutIsRowMajorMsbFirst : Prop :=
  (∀ y k j : Nat, y < 64 → k < 16 → j < 8 → pixIndex (8 * k + j : Nat) (y : Nat) = (16 * y + k, 7 - j)) ∧
  ∀ a b : Nat, a < 1024 → b < 8 → ∃! p : Int × Int, InBounds p.1 p.2 ∧ pixIndex p.1 p.2 = (a, b)

/-- R100: SET_PIXEL changes one bit of one byte of FB when the pixel is in bounds and nothing otherwise; every other byte
of FB and everything else is unchanged. -/
def Obligations.SetPixelWritesOneBit : Prop :=
  ∀ (s : State) (x y : Int) (v : Bool), ∃ t, exec (.setPixel x y v) s = .next t ∧ t = { s with fb := t.fb } ∧
    (0 ≤ x ∧ x < 128 ∧ 0 ≤ y ∧ y < 64 →
      t.fbByte (pixIndex x y).1 =
        (s.fbByte (pixIndex x y).1 &&& ~~~ (1#8 <<< (pixIndex x y).2)) |||
          ((if v then 1#8 else 0#8) <<< (pixIndex x y).2)) ∧
    (¬ (0 ≤ x ∧ x < 128 ∧ 0 ≤ y ∧ y < 64) → t = s) ∧
    ∀ a, a ≠ (pixIndex x y).1 → t.fbByte a = s.fbByte a

/-- R101, R102: GET_PIXEL appends the pixel's bit, 0 for a point out of bounds, and changes nothing else. -/
def Obligations.GetPixelAppendsThePixel : Prop :=
  ∀ (s : State) (x y : Int),
    exec (.getPixel x y) s =
      .next { s with
        results := s.results ++
          [if (0 ≤ x ∧ x < 128 ∧ 0 ≤ y ∧ y < 64) ∧
              (s.fbByte (y * 16 + x / 8).toNat).getLsbD (7 - x % 8).toNat = true
           then 1#32 else 0#32] }

/-- SET_PIXEL then GET_PIXEL of an in-bounds pixel returns the value set, and every other pixel keeps its value (the
spec's own inference R107). -/
def Obligations.PixelRoundTrip : Prop :=
  ∀ (s t : State) (x y : Int) (v : Bool), 0 ≤ x → x < 128 → 0 ≤ y → y < 64 → exec (.setPixel x y v) s = .next t →
    exec (.getPixel x y) t = .next { t with results := s.results ++ [if v then 1#32 else 0#32] } ∧
    ∀ x' y' : Int, (x', y') ≠ (x, y) →
      ∃ w, exec (.getPixel x' y') s = .next { s with results := s.results ++ [w] } ∧
        exec (.getPixel x' y') t = .next { t with results := t.results ++ [w] }

/-- R104: FILL makes every byte of FB 0xFF or 0x00, the same whatever FB held (its reset content, R241, included), and
changes nothing else. -/
def Obligations.FillSetsEveryByte : Prop :=
  ∀ (s : State) (v : Bool), ∃ t, exec (.fill v) s = .next t ∧ t = { s with fb := t.fb } ∧
    (∀ i, i < 1024 → t.fbByte i = if v then 0xFF#8 else 0x00#8) ∧
    (∀ i, i < 1024 → ∀ s' : State, ∃ t', exec (.fill v) s' = .next t' ∧ t'.fbByte i = t.fbByte i) ∧
    ∀ x y : Int, InBounds x y → t.pixRead x y = v

/-- R105: DRAW_RECT gives the value to exactly the in-bounds pixels of the inclusive rectangle, whatever the order of its
corners; every other pixel, every byte no such pixel lies in, and everything else is unchanged. -/
def Obligations.DrawRectPaintsTheRectangle : Prop :=
  ∀ (s : State) (x0 y0 x1 y1 : Int) (v : Bool), ∃ t, exec (.drawRect x0 y0 x1 y1 v) s = .next t ∧
    t = { s with fb := t.fb } ∧
    (∀ px py : Int, InBounds px py →
      t.pixRead px py =
        if min x0 x1 ≤ px ∧ px ≤ max x0 x1 ∧ min y0 y1 ≤ py ∧ py ≤ max y0 y1 then v else s.pixRead px py) ∧
    ∀ a, (∀ px py : Int, InBounds px py → min x0 x1 ≤ px → px ≤ max x0 x1 → min y0 y1 ≤ py → py ≤ max y0 y1 →
        (pixIndex px py).1 ≠ a) → t.fbByte a = s.fbByte a

/-- DRAW_RECT's corner cases (R105): any order of the corners gives the same state, and a rectangle over the whole screen
leaves the bytes FILL leaves. -/
def Obligations.DrawRectCornersAndWholeScreen : Prop :=
  (∀ (s : State) (x0 y0 x1 y1 : Int) (v : Bool),
    exec (.drawRect x1 y1 x0 y0 v) s = exec (.drawRect x0 y0 x1 y1 v) s ∧
    exec (.drawRect x1 y0 x0 y1 v) s = exec (.drawRect x0 y0 x1 y1 v) s) ∧
  ∀ (s : State) (x0 y0 x1 y1 : Int) (v : Bool), x0 ≤ 0 → y0 ≤ 0 → 127 ≤ x1 → 63 ≤ y1 →
    ∃ t u, exec (.drawRect x0 y0 x1 y1 v) s = .next t ∧ exec (.fill v) s = .next u ∧
      ∀ i, i < 1024 → t.fbByte i = u.fbByte i

/-- The number of pixels DRAW_RECT changes is at most the number of in-bounds pixels of the rectangle, and each had the
other value (the spec's own inference R106). -/
def Obligations.DrawRectChangesAtMostItsPixels : Prop :=
  ∀ (s t : State) (x0 y0 x1 y1 : Int) (v : Bool), exec (.drawRect x0 y0 x1 y1 v) s = .next t →
    ((List.range 64).flatMap fun y => (List.range 128).map fun x => (x, y)).countP
        (fun p => t.pixRead (p.1 : Nat) (p.2 : Nat) != s.pixRead (p.1 : Nat) (p.2 : Nat)) ≤
      (min (max x0 x1) 127 - max (min x0 x1) 0 + 1).toNat * (min (max y0 y1) 63 - max (min y0 y1) 0 + 1).toNat ∧
    ∀ px py : Int, t.pixRead px py ≠ s.pixRead px py →
      InBounds px py ∧ min x0 x1 ≤ px ∧ px ≤ max x0 x1 ∧ min y0 y1 ≤ py ∧ py ≤ max y0 y1 ∧ s.pixRead px py = !v

/-- A SET_PIXEL, DRAW_RECT, DRAW_GLYPH or DRAW_TEXT whose every pixel is out of bounds changes nothing at all (the
spec's own inference R108). -/
def Obligations.ClippedDrawingChangesNothing : Prop :=
  ∀ (s : State) (v : Bool),
    (∀ x y : Int, ¬ InBounds x y → exec (.setPixel x y v) s = .next s) ∧
    (∀ x0 y0 x1 y1 : Int,
      (∀ px py : Int, min x0 x1 ≤ px → px ≤ max x0 x1 → min y0 y1 ≤ py → py ≤ max y0 y1 → ¬ InBounds px py) →
      exec (.drawRect x0 y0 x1 y1 v) s = .next s) ∧
    (∀ (x y : Int) (cp : Nat), (∀ px py, GlyphPixel Config.atlas x y cp px py → ¬ InBounds px py) →
      exec (.drawGlyph x y cp v) s = .next s) ∧
    ∀ (x y : Int) (cps : List Nat), (∀ px py, TextPixel Config.atlas x y cps px py → ¬ InBounds px py) →
      exec (.drawText x y cps v) s = .next s

/-- The drawing commands and GET_PIXEL do the same whatever STATUS holds, and drive no line (the spec's own inference
R109). -/
def Obligations.DrawingDoesNotDependOnStatus : Prop :=
  ∀ (i : Instr) (s : State) (w : Word),
    ((∃ x y v, i = .setPixel x y v) ∨ (∃ x y, i = .getPixel x y) ∨ (∃ v, i = .fill v) ∨
      (∃ x0 y0 x1 y1 v, i = .drawRect x0 y0 x1 y1 v) ∨ (∃ x y cp v, i = .drawGlyph x y cp v) ∨
      ∃ x y cps v, i = .drawText x y cps v) →
    ∃ t, exec i s = .next t ∧ exec i { s with status := w } = .next { t with status := w } ∧
      t.status = s.status ∧ t.wire = s.wire ∧ t.data = s.data ∧ t.clk = s.clk ∧ t.cb = s.cb

/-- R23: FB is written by the five drawing commands alone: by the pixel write of R100 at each pixel of the command's own
list, with its own value, or, for FILL, as a whole. A text's list is those of its glyphs, each at its cursor. -/
def Obligations.OnlyDrawingCommandsWriteTheFramebuffer : Prop :=
  ∀ (i : Instr) (s : State), ∃ t, exec i s = .next t ∧
    (∀ x y v, i = .setPixel x y v → t = s.pixWrite x y v) ∧
    (∀ v, i = .fill v → t = { s with fb := t.fb } ∧ ∀ j, j < 1024 → t.fbByte j = if v then 0xFF#8 else 0x00#8) ∧
    (∀ x0 y0 x1 y1 v, i = .drawRect x0 y0 x1 y1 v →
      t = (rectPixels x0 y0 x1 y1).foldl (fun u p => u.pixWrite p.1 p.2 v) s) ∧
    (∀ x y cp v, i = .drawGlyph x y cp v →
      t = (glyphPixels Config.atlas x y cp).foldl (fun u p => u.pixWrite p.1 p.2 v) s) ∧
    (∀ x y cps v, i = .drawText x y cps v →
      t = ((List.range cps.length).flatMap fun k =>
          if cps[k]? = some 0x0A then []
          else glyphPixels Config.atlas (textCursor x y (cps.take k)).1 (textCursor x y (cps.take k)).2
            (cps.getD k 0)).foldl (fun u p => u.pixWrite p.1 p.2 v) s) ∧
    (isDrawing i = false → t.fb = s.fb)

/-! ## Glyphs and text -/

/-- R130 to R133: DRAW_GLYPH gives the value to exactly the in-bounds ink pixels of the cell (byte 0 alone below codepoint
128, both bytes from 128 on, no ink without a cell); every other pixel, every byte no such pixel lies in, and everything
else is unchanged. -/
def Obligations.DrawGlyphPaintsTheInk : Prop :=
  ∀ (s : State) (x y : Int) (cp : Nat) (v : Bool), ∃ t, exec (.drawGlyph x y cp v) s = .next t ∧
    t = { s with fb := t.fb } ∧
    (∀ px py : Int, InBounds px py →
      (GlyphPixel Config.atlas x y cp px py → t.pixRead px py = v) ∧
      (¬ GlyphPixel Config.atlas x y cp px py → t.pixRead px py = s.pixRead px py)) ∧
    ∀ a, (∀ px py : Int, InBounds px py → GlyphPixel Config.atlas x y cp px py → (pixIndex px py).1 ≠ a) →
      t.fbByte a = s.fbByte a

/-- R130, R133: a codepoint with no atlas cell draws nothing. -/
def Obligations.GlyphWithoutCellDrawsNothing : Prop :=
  ∀ (s : State) (x y : Int) (cp : Nat) (v : Bool), Config.atlas.nGlyphs ≤ cp →
    exec (.drawGlyph x y cp v) s = .next s

/-- R132: byte 1 of a narrow glyph's rows never reaches FB: two atlases that agree on the even bytes draw it alike. -/
def Obligations.NarrowGlyphIgnoresByteOne : Prop :=
  ∀ (a a' : Config.Atlas) (s : State) (x y : Int) (cp : Nat) (v : Bool), cp < 128 → a.nGlyphs = a'.nGlyphs →
    (∀ n, n % 2 = 0 → a.byte n = a'.byte n) → s.drawGlyph a x y cp v = s.drawGlyph a' x y cp v

/-- DRAW_TEXT has the effect of its DRAW_GLYPH commands in order, each at the cursor of R134: x back to the start and y
16 lower after a newline, x 8 or 16 further after a glyph (R134; R137 is the spec's own inference). -/
def Obligations.DrawTextIsItsGlyphs : Prop :=
  ∀ (s : State) (x y : Int) (cps : List Nat) (v : Bool),
    exec (.drawText x y cps v) s = execAll (textGlyphs x y cps v) s

/-- DRAW_TEXT gives the value to exactly the in-bounds ink pixels of its glyphs at their cursors (R134, R135); every
other pixel, every byte no such pixel lies in, and everything else is unchanged. -/
def Obligations.DrawTextPaintsTheInkOfItsGlyphs : Prop :=
  ∀ (s : State) (x y : Int) (cps : List Nat) (v : Bool), ∃ t, exec (.drawText x y cps v) s = .next t ∧
    t = { s with fb := t.fb } ∧
    (∀ px py : Int, InBounds px py →
      (TextPixel Config.atlas x y cps px py → t.pixRead px py = v) ∧
      (¬ TextPixel Config.atlas x y cps px py → t.pixRead px py = s.pixRead px py)) ∧
    ∀ a, (∀ px py : Int, InBounds px py → TextPixel Config.atlas x y cps px py → (pixIndex px py).1 ≠ a) →
      t.fbByte a = s.fbByte a

/-- The cursor of a text a host can send, and every pixel coordinate drawn from it, stays between -32768 and 1081342
(the spec's own inference R136). -/
def Obligations.TextCursorStaysInRange : Prop :=
  ∀ (x y : Int) (cps pre post : List Nat) (v : Bool), (Instr.drawText x y cps v).wellFormed = true →
    cps = pre ++ post →
    -32768 ≤ (textCursor x y pre).1 ∧ (textCursor x y pre).1 + 15 ≤ 1081342 ∧
    -32768 ≤ (textCursor x y pre).2 ∧ (textCursor x y pre).2 + 15 ≤ 1081342

/-! ## The wire -/

/-- R161, R162: WriteCmd and WriteData send the 24 bits of the frame, first bit first, leave both lines low and change
nothing else. -/
def Obligations.FramesAreTwentyFourBits : Prop :=
  ∀ (s : State) (v : Byte),
    let bits (rs : Bool) : List WireEvent :=
      [true, true, true, true, true, false, rs, false, v.getLsbD 7, v.getLsbD 6, v.getLsbD 5, v.getLsbD 4,
        false, false, false, false, v.getLsbD 3, v.getLsbD 2, v.getLsbD 1, v.getLsbD 0,
        false, false, false, false].map WireEvent.bit
    exec (.frameCmd v) s = .next { s with wire := s.wire ++ bits false, data := false, clk := false } ∧
    exec (.frameData v) s = .next { s with wire := s.wire ++ bits true, data := false, clk := false }

/-- Every step sends whole frames and waits, so the events of a command group in 24s exactly (the spec's own inference
R166). -/
def Obligations.StepsSendWholeFrames : Prop :=
  ∀ s t : State, step s = .next t →
    ∃ items : List ((Bool × Byte) ⊕ Nat),
      t.wire = s.wire ++ items.flatMap fun
        | .inl (rs, v) => frameEvents rs v
        | .inr n => [.wait n]

/-- R170: SETUP sends the two frames, a wait of at least 1.6 ms, and two more frames, sets INIT, clears SYNCED, and
changes nothing else. -/
def Obligations.SetupSendsTheInitializationSequence : Prop :=
  ∀ s : State, ∃ n, 1600000 ≤ n ∧
    exec .setup s =
      .next { s with
        wire := s.wire ++ (frameEvents false Config.commandBytes.basic8 ++ frameEvents false Config.commandBytes.clear ++
          [.wait n] ++ frameEvents false Config.commandBytes.ext ++ frameEvents false Config.commandBytes.gfxOn)
        data := false
        clk := false
        status := (s.status ||| 0x00000001#32) &&& ~~~ 0x00000002#32 }

/-- The controller address of the word at row `y`, column `c` (R51) is one of the 512 pairs, each pair is the address of
exactly one word, and the two banks share none (R52 is the spec's own inference). -/
def Obligations.ControllerAddressesAreABijection : Prop :=
  (∀ y c : Nat, addrOf y c = if y < 32 then (y, c) else (y - 32, c + 8)) ∧
  ∀ ra ca : Nat, ra < 32 → ca < 16 →
    (∃! w : Nat, w < 512 ∧ addrOf (w / 8) (w % 8) = (ra, ca)) ∧
    ∀ w : Nat, w < 512 → addrOf (w / 8) (w % 8) = (ra, ca) → (w < 256 ↔ ca < 8)

/-- R176: with INIT = 1, COMMIT_FULL sends all 512 words in order, each as row address, column address, left byte, right
byte, makes CB equal FB, sets SYNCED, and changes nothing else. -/
def Obligations.CommitFullSendsEveryWord : Prop :=
  ∀ s : State, s.status.getLsbD 0 = true → ∃ t, exec .commitFull s = .next t ∧
    t = { s with
      cb := t.cb
      wire := s.wire ++ (List.range 512).flatMap fun w =>
        frameEvents false (Config.commandBytes.addr + BitVec.ofNat 8 (if w < 256 then w / 8 else w / 8 - 32)) ++
          frameEvents false (Config.commandBytes.addr + BitVec.ofNat 8 (if w < 256 then w % 8 else w % 8 + 8)) ++
          frameEvents true (s.fbByte (2 * w)) ++ frameEvents true (s.fbByte (2 * w + 1))
      data := false
      clk := false
      status := s.status ||| 0x00000002#32 } ∧
    ∀ i, i < 1024 → t.cbByte i = s.fbByte i

/-- R174: with INIT = 1, COMMIT_DIFF sends, in order, the words that differ between FB and CB, or all when SYNCED = 0,
makes CB equal FB, sets SYNCED, and changes nothing else; when it sends nothing the lines keep their levels. -/
def Obligations.CommitDiffSendsTheDifferingWords : Prop :=
  ∀ s : State, s.status.getLsbD 0 = true → ∃ t ws, exec .commitDiff s = .next t ∧
    ws = (List.range 512).filter (fun w => s.status.getLsbD 1 = false ∨
      s.fbByte (2 * w) ≠ s.cbByte (2 * w) ∨ s.fbByte (2 * w + 1) ≠ s.cbByte (2 * w + 1)) ∧
    t = { s with
      cb := t.cb
      wire := s.wire ++ ws.flatMap fun w =>
        frameEvents false (Config.commandBytes.addr + BitVec.ofNat 8 (if w < 256 then w / 8 else w / 8 - 32)) ++
          frameEvents false (Config.commandBytes.addr + BitVec.ofNat 8 (if w < 256 then w % 8 else w % 8 + 8)) ++
          frameEvents true (s.fbByte (2 * w)) ++ frameEvents true (s.fbByte (2 * w + 1))
      data := s.data && decide (ws = [])
      clk := s.clk && decide (ws = [])
      status := s.status ||| 0x00000002#32 } ∧
    ∀ i, i < 1024 → t.cbByte i = s.fbByte i

/-- With SYNCED = 0, as after any SETUP, COMMIT_DIFF is COMMIT_FULL (R174; R252 is the spec's own inference). -/
def Obligations.UnsyncedCommitDiffIsCommitFull : Prop :=
  (∀ s : State, s.flag .synced = false → exec .commitDiff s = exec .commitFull s) ∧
  ∀ s t : State, exec .setup s = .next t → exec .commitDiff t = exec .commitFull t

/-- After COMMIT_FULL an immediate COMMIT_DIFF changes nothing at all, so it transmits nothing (the spec's own inference
R178, the source's "Diff minimality"). -/
def Obligations.CommitDiffAfterCommitFullIsSilent : Prop :=
  ∀ s t : State, s.flag .init = true → exec .commitFull s = .next t → exec .commitDiff t = .next t

/-- Synced and with CB equal to FB, one SET_PIXEL then COMMIT_DIFF sends exactly the one word that holds the pixel when
the pixel changed and nothing otherwise, and leaves CB equal to FB (the spec's own inference R179). -/
def Obligations.OnePixelThenCommitDiffSendsItsWord : Prop :=
  ∀ (s t : State) (x y : Int) (v : Bool), s.flag .init = true → s.flag .synced = true →
    (∀ i, i < 1024 → s.cbByte i = s.fbByte i) → exec (.setPixel x y v) s = .next t →
    ∃ u, exec .commitDiff t = .next u ∧ (∀ i, i < 1024 → u.cbByte i = u.fbByte i) ∧
      u.wire = s.wire ++
        (if InBounds x y ∧ s.pixRead x y ≠ v then
          sendWord Config.commandBytes t ((y * 8 + x / 16).toNat)
        else [])

/-- How many events each protocol command sends: 96 bits and a wait, 49152 bits, 96 bits for each differing word, none
when refused (the spec's own inference R177). -/
def Obligations.TrafficOfTheProtocolCommands : Prop :=
  ∀ s : State,
    (∃ t, exec .setup s = .next t ∧ t.wire.length = s.wire.length + 97 ∧
      t.wire.countP (fun e => e matches .wait _) = s.wire.countP (fun e => e matches .wait _) + 1) ∧
    (s.flag .init = true → ∃ t, exec .commitFull s = .next t ∧ t.wire.length = s.wire.length + 49152) ∧
    (s.flag .init = true → s.flag .synced = true → ∃ t, exec .commitDiff s = .next t ∧
      t.wire.length = s.wire.length + 96 * (List.range 512).countP fun w => s.differs w) ∧
    (s.flag .init = true → s.flag .synced = false → ∃ t, exec .commitDiff s = .next t ∧
      t.wire.length = s.wire.length + 49152) ∧
    (s.flag .init = false → ∃ t u, exec .commitDiff s = .next t ∧ exec .commitFull s = .next u ∧
      t.wire = s.wire ∧ u.wire = s.wire)

/-- R24: CB is written by the commits alone, which make it equal FB, and it is read by COMMIT_DIFF alone, which returns
nothing, and not even by it while SYNCED = 0: any other operation does the same whatever CB holds. -/
def Obligations.CommittedBufferIsHidden : Prop :=
  (∀ (i : Instr) (s : State), ∃ t, exec i s = .next t ∧
    (t.cb = s.cb ∨ ((i = .commitDiff ∨ i = .commitFull) ∧ ∀ j, j < 1024 → t.cbByte j = s.fbByte j)) ∧
    (i = .commitDiff → t.results = s.results)) ∧
  ∀ (i : Instr) (s : State) (m : Memory), i ≠ .commitDiff ∨ s.flag .synced = false →
    ∃ t t', exec i s = .next t ∧ exec i { s with cb := m } = .next t' ∧ { t' with cb := t.cb } = t ∧
      ((t.cb = s.cb ∧ t'.cb = m) ∨ t'.cb = t.cb)

/-! ## Reset -/

/-- R240: the state after reset, the first and any later: STATUS zero, no results, lines low, the decoder at a command
boundary, nothing known of the display image, and every byte of both buffers a free draw of that reset (the form of the
draws is the model's, log 4). -/
def Obligations.ResetLeavesTheStatedValues : Prop :=
  ∀ s t : State, (t = { State.reset with draw := s.draw } ∨ t = s.warmReset) →
    t.status = 0 ∧ t.results = [] ∧ t.data = false ∧ t.clk = false ∧ t.decoder = .boundary ∧
    (∀ ra ca, displayImage Config.commandBytes t.wire ra ca = none) ∧
    (∀ i, t.fbByte i = Config.fbDraw t.draw i ∧ t.cbByte i = Config.cbDraw t.draw i) ∧
    (t = s.warmReset → t.draw = s.draw + 1)

/-- A reset inside a command leaves the values of R240 and no more of the wire than a front part of what the command
sends (R242; the form is the model's, log 10). -/
def Obligations.ResetInsideACommandAbandonsIt : Prop :=
  ∀ (s u : State) (k : Nat) (tr : List WireEvent), s.abandon k = some (tr, u) →
    ∃ t, step s = .next t ∧ s.wire <+: tr ∧ tr <+: t.wire ∧ tr.length ≤ s.wire.length + k ∧
      u.status = 0 ∧ u.results = [] ∧ u.data = false ∧ u.clk = false ∧ u.decoder = .boundary ∧ u.wire = [] ∧
      u.fb = [] ∧ u.cb = [] ∧ u.draw = t.draw + 1

/-! ## Invariants -/

/-- Every step keeps the invariant: both buffers in canonical form with no byte outside 0 to 1023, STATUS legal (bits
31:4 zero, SYNCED only with INIT), both lines low, the decoder's position one of R29 (R25, R28, R35, R45). -/
def Obligations.StepKeepsInv : Prop :=
  ∀ s t : State, s.Inv → step s = .next t → t.Inv

/-- The invariant holds after reset (R240). -/
def Obligations.ResetSatisfiesInv : Prop := State.reset.Inv

/-- Every step keeps what relates the wire to the state: whole groups of frames, and while SYNCED = 1 the display image
is the committed buffer (the spec's own inference R181). -/
def Obligations.StepKeepsDisplayInv : Prop :=
  ∀ s t : State, s.DisplayInv → step s = .next t → t.DisplayInv

/-- It holds after reset. -/
def Obligations.ResetSatisfiesDisplayInv : Prop := State.reset.DisplayInv

/-- After a commit that is not refused the controller shows the framebuffer, at the address of every word (the spec's own
inference R181). -/
def Obligations.CommitShowsTheFramebuffer : Prop :=
  ∀ (s : State) (i : Instr), s.DisplayInv → s.flag .init = true → (i = .commitDiff ∨ i = .commitFull) →
    ∃ t, exec i s = .next t ∧ ∀ w, w < 512 → t.shown w = some (t.fbByte (2 * w) ++ t.fbByte (2 * w + 1))

/-- Whatever the host does between steps, every state the block reaches satisfies both invariants, and no step of it
stops (R215, R253). -/
def Obligations.ReachableStatesAreSound : Prop :=
  ∀ s : State, Reachable s → s.Inv ∧ s.DisplayInv ∧ ∃ t, step s = .next t

/-- The order of R244 from any reachable state: SETUP, then a FILL and any drawing commands, COMMIT_FULL, then any number of
redraws, each any drawing commands and COMMIT_DIFF. It leaves SYNCED = 1 and the screen showing the framebuffer, which holds
what the FILL and the drawing commands alone, in their order, leave there. -/
def Obligations.RefreshOrderShowsTheDrawing : Prop :=
  ∀ (s : State) (v : Bool) (first : List Instr) (redraws : List (List Instr)), Reachable s →
    (∀ i ∈ first, isDrawing i = true) → (∀ draws ∈ redraws, ∀ i ∈ draws, isDrawing i = true) →
    ∃ t u,
      execAll (.setup :: .fill v :: first ++ .commitFull :: redraws.flatMap fun draws => draws ++ [.commitDiff]) s =
        .next t ∧
      execAll (.fill v :: first ++ redraws.flatten) s = .next u ∧
      t.flag .synced = true ∧
      (∀ n, n < 512 → t.shown n = some (t.fbByte (2 * n) ++ t.fbByte (2 * n + 1))) ∧
      ∀ j, t.fbByte j = u.fbByte j
end

