-- ==== Sys2Proof/Laws/State.lean ====
section
/-! SUPPORT. One lemma per field of State per update, each true by rfl, so that no later proof unfolds a record update. -/

namespace Sys2Proof.Machine

section
variable (s : State)

/-! `setFlag` -/
@[simp] theorem State.setFlag_fb (b : StatusBit) : (s.setFlag b).fb = s.fb := rfl
@[simp] theorem State.setFlag_cb (b : StatusBit) : (s.setFlag b).cb = s.cb := rfl
@[simp] theorem State.setFlag_status (b : StatusBit) : (s.setFlag b).status = s.status ||| b.mask := rfl
@[simp] theorem State.setFlag_results (b : StatusBit) : (s.setFlag b).results = s.results := rfl
@[simp] theorem State.setFlag_data (b : StatusBit) : (s.setFlag b).data = s.data := rfl
@[simp] theorem State.setFlag_clk (b : StatusBit) : (s.setFlag b).clk = s.clk := rfl
@[simp] theorem State.setFlag_decoder (b : StatusBit) : (s.setFlag b).decoder = s.decoder := rfl
@[simp] theorem State.setFlag_port (b : StatusBit) : (s.setFlag b).port = s.port := rfl
@[simp] theorem State.setFlag_wire (b : StatusBit) : (s.setFlag b).wire = s.wire := rfl
@[simp] theorem State.setFlag_frames (b : StatusBit) : (s.setFlag b).frames = s.frames := rfl
@[simp] theorem State.setFlag_draw (b : StatusBit) : (s.setFlag b).draw = s.draw := rfl

/-! `clearFlag` -/
@[simp] theorem State.clearFlag_fb (b : StatusBit) : (s.clearFlag b).fb = s.fb := rfl
@[simp] theorem State.clearFlag_cb (b : StatusBit) : (s.clearFlag b).cb = s.cb := rfl
@[simp] theorem State.clearFlag_status (b : StatusBit) : (s.clearFlag b).status = s.status &&& ~~~ b.mask := rfl
@[simp] theorem State.clearFlag_results (b : StatusBit) : (s.clearFlag b).results = s.results := rfl
@[simp] theorem State.clearFlag_data (b : StatusBit) : (s.clearFlag b).data = s.data := rfl
@[simp] theorem State.clearFlag_clk (b : StatusBit) : (s.clearFlag b).clk = s.clk := rfl
@[simp] theorem State.clearFlag_decoder (b : StatusBit) : (s.clearFlag b).decoder = s.decoder := rfl
@[simp] theorem State.clearFlag_port (b : StatusBit) : (s.clearFlag b).port = s.port := rfl
@[simp] theorem State.clearFlag_wire (b : StatusBit) : (s.clearFlag b).wire = s.wire := rfl
@[simp] theorem State.clearFlag_frames (b : StatusBit) : (s.clearFlag b).frames = s.frames := rfl
@[simp] theorem State.clearFlag_draw (b : StatusBit) : (s.clearFlag b).draw = s.draw := rfl

/-! `raise` -/
@[simp] theorem State.raise_fb (e : ErrorCode) : (s.raise e).fb = s.fb := rfl
@[simp] theorem State.raise_cb (e : ErrorCode) : (s.raise e).cb = s.cb := rfl
@[simp] theorem State.raise_status (e : ErrorCode) : (s.raise e).status = s.status ||| e.bit.mask := rfl
@[simp] theorem State.raise_results (e : ErrorCode) : (s.raise e).results = s.results := rfl
@[simp] theorem State.raise_data (e : ErrorCode) : (s.raise e).data = s.data := rfl
@[simp] theorem State.raise_clk (e : ErrorCode) : (s.raise e).clk = s.clk := rfl
@[simp] theorem State.raise_decoder (e : ErrorCode) : (s.raise e).decoder = s.decoder := rfl
@[simp] theorem State.raise_port (e : ErrorCode) : (s.raise e).port = s.port := rfl
@[simp] theorem State.raise_wire (e : ErrorCode) : (s.raise e).wire = s.wire := rfl
@[simp] theorem State.raise_frames (e : ErrorCode) : (s.raise e).frames = s.frames := rfl
@[simp] theorem State.raise_draw (e : ErrorCode) : (s.raise e).draw = s.draw := rfl

/-! `setFbByte` -/
@[simp] theorem State.setFbByte_fb (i : Nat) (b : Byte) : (s.setFbByte i b).fb = s.fb.write i b := rfl
@[simp] theorem State.setFbByte_cb (i : Nat) (b : Byte) : (s.setFbByte i b).cb = s.cb := rfl
@[simp] theorem State.setFbByte_status (i : Nat) (b : Byte) : (s.setFbByte i b).status = s.status := rfl
@[simp] theorem State.setFbByte_results (i : Nat) (b : Byte) : (s.setFbByte i b).results = s.results := rfl
@[simp] theorem State.setFbByte_data (i : Nat) (b : Byte) : (s.setFbByte i b).data = s.data := rfl
@[simp] theorem State.setFbByte_clk (i : Nat) (b : Byte) : (s.setFbByte i b).clk = s.clk := rfl
@[simp] theorem State.setFbByte_decoder (i : Nat) (b : Byte) : (s.setFbByte i b).decoder = s.decoder := rfl
@[simp] theorem State.setFbByte_port (i : Nat) (b : Byte) : (s.setFbByte i b).port = s.port := rfl
@[simp] theorem State.setFbByte_wire (i : Nat) (b : Byte) : (s.setFbByte i b).wire = s.wire := rfl
@[simp] theorem State.setFbByte_frames (i : Nat) (b : Byte) : (s.setFbByte i b).frames = s.frames := rfl
@[simp] theorem State.setFbByte_draw (i : Nat) (b : Byte) : (s.setFbByte i b).draw = s.draw := rfl

/-! `setFb` -/
@[simp] theorem State.setFb_fb (f : Nat → Byte) : (s.setFb f).fb = Memory.ofBytes f := rfl
@[simp] theorem State.setFb_cb (f : Nat → Byte) : (s.setFb f).cb = s.cb := rfl
@[simp] theorem State.setFb_status (f : Nat → Byte) : (s.setFb f).status = s.status := rfl
@[simp] theorem State.setFb_results (f : Nat → Byte) : (s.setFb f).results = s.results := rfl
@[simp] theorem State.setFb_data (f : Nat → Byte) : (s.setFb f).data = s.data := rfl
@[simp] theorem State.setFb_clk (f : Nat → Byte) : (s.setFb f).clk = s.clk := rfl
@[simp] theorem State.setFb_decoder (f : Nat → Byte) : (s.setFb f).decoder = s.decoder := rfl
@[simp] theorem State.setFb_port (f : Nat → Byte) : (s.setFb f).port = s.port := rfl
@[simp] theorem State.setFb_wire (f : Nat → Byte) : (s.setFb f).wire = s.wire := rfl
@[simp] theorem State.setFb_frames (f : Nat → Byte) : (s.setFb f).frames = s.frames := rfl
@[simp] theorem State.setFb_draw (f : Nat → Byte) : (s.setFb f).draw = s.draw := rfl

/-! `copyFbToCb` -/
@[simp] theorem State.copyFbToCb_fb : (s.copyFbToCb).fb = s.fb := rfl
@[simp] theorem State.copyFbToCb_cb : (s.copyFbToCb).cb = Memory.ofBytes s.fbByte := rfl
@[simp] theorem State.copyFbToCb_status : (s.copyFbToCb).status = s.status := rfl
@[simp] theorem State.copyFbToCb_results : (s.copyFbToCb).results = s.results := rfl
@[simp] theorem State.copyFbToCb_data : (s.copyFbToCb).data = s.data := rfl
@[simp] theorem State.copyFbToCb_clk : (s.copyFbToCb).clk = s.clk := rfl
@[simp] theorem State.copyFbToCb_decoder : (s.copyFbToCb).decoder = s.decoder := rfl
@[simp] theorem State.copyFbToCb_port : (s.copyFbToCb).port = s.port := rfl
@[simp] theorem State.copyFbToCb_wire : (s.copyFbToCb).wire = s.wire := rfl
@[simp] theorem State.copyFbToCb_frames : (s.copyFbToCb).frames = s.frames := rfl
@[simp] theorem State.copyFbToCb_draw : (s.copyFbToCb).draw = s.draw := rfl

/-! `pushResult` -/
@[simp] theorem State.pushResult_fb (w : Word) : (s.pushResult w).fb = s.fb := rfl
@[simp] theorem State.pushResult_cb (w : Word) : (s.pushResult w).cb = s.cb := rfl
@[simp] theorem State.pushResult_status (w : Word) : (s.pushResult w).status = s.status := rfl
@[simp] theorem State.pushResult_results (w : Word) : (s.pushResult w).results = s.results ++ [w] := rfl
@[simp] theorem State.pushResult_data (w : Word) : (s.pushResult w).data = s.data := rfl
@[simp] theorem State.pushResult_clk (w : Word) : (s.pushResult w).clk = s.clk := rfl
@[simp] theorem State.pushResult_decoder (w : Word) : (s.pushResult w).decoder = s.decoder := rfl
@[simp] theorem State.pushResult_port (w : Word) : (s.pushResult w).port = s.port := rfl
@[simp] theorem State.pushResult_wire (w : Word) : (s.pushResult w).wire = s.wire := rfl
@[simp] theorem State.pushResult_frames (w : Word) : (s.pushResult w).frames = s.frames := rfl
@[simp] theorem State.pushResult_draw (w : Word) : (s.pushResult w).draw = s.draw := rfl

/-! `emit` -/
@[simp] theorem State.emit_fb (es : List WireEvent) : (s.emit es).fb = s.fb := rfl
@[simp] theorem State.emit_cb (es : List WireEvent) : (s.emit es).cb = s.cb := rfl
@[simp] theorem State.emit_status (es : List WireEvent) : (s.emit es).status = s.status := rfl
@[simp] theorem State.emit_results (es : List WireEvent) : (s.emit es).results = s.results := rfl
@[simp] theorem State.emit_data (es : List WireEvent) : (s.emit es).data = dataAfter s.data es := rfl
@[simp] theorem State.emit_clk (es : List WireEvent) : (s.emit es).clk = clkAfter s.clk es := rfl
@[simp] theorem State.emit_decoder (es : List WireEvent) : (s.emit es).decoder = s.decoder := rfl
@[simp] theorem State.emit_port (es : List WireEvent) : (s.emit es).port = s.port := rfl
@[simp] theorem State.emit_wire (es : List WireEvent) : (s.emit es).wire = s.wire ++ es := rfl
@[simp] theorem State.emit_frames (es : List WireEvent) : (s.emit es).frames = s.frames := rfl
@[simp] theorem State.emit_draw (es : List WireEvent) : (s.emit es).draw = s.draw := rfl

/-! `afterCommand` -/
@[simp] theorem State.afterCommand_fb (rest : List Word) : (s.afterCommand rest).fb = s.fb := rfl
@[simp] theorem State.afterCommand_cb (rest : List Word) : (s.afterCommand rest).cb = s.cb := rfl
@[simp] theorem State.afterCommand_status (rest : List Word) : (s.afterCommand rest).status = s.status := rfl
@[simp] theorem State.afterCommand_results (rest : List Word) : (s.afterCommand rest).results = s.results := rfl
@[simp] theorem State.afterCommand_data (rest : List Word) : (s.afterCommand rest).data = s.data := rfl
@[simp] theorem State.afterCommand_clk (rest : List Word) : (s.afterCommand rest).clk = s.clk := rfl
@[simp] theorem State.afterCommand_decoder (rest : List Word) : (s.afterCommand rest).decoder = .boundary := rfl
@[simp] theorem State.afterCommand_port (rest : List Word) : (s.afterCommand rest).port = rest := rfl
@[simp] theorem State.afterCommand_wire (rest : List Word) : (s.afterCommand rest).wire = s.wire := rfl
@[simp] theorem State.afterCommand_frames (rest : List Word) : (s.afterCommand rest).frames = s.frames := rfl
@[simp] theorem State.afterCommand_draw (rest : List Word) : (s.afterCommand rest).draw = s.draw := rfl

/-! `hostSends` -/
@[simp] theorem State.hostSends_fb (ws : List Word) : (s.hostSends ws).fb = s.fb := rfl
@[simp] theorem State.hostSends_cb (ws : List Word) : (s.hostSends ws).cb = s.cb := rfl
@[simp] theorem State.hostSends_status (ws : List Word) : (s.hostSends ws).status = s.status := rfl
@[simp] theorem State.hostSends_results (ws : List Word) : (s.hostSends ws).results = s.results := rfl
@[simp] theorem State.hostSends_data (ws : List Word) : (s.hostSends ws).data = s.data := rfl
@[simp] theorem State.hostSends_clk (ws : List Word) : (s.hostSends ws).clk = s.clk := rfl
@[simp] theorem State.hostSends_decoder (ws : List Word) : (s.hostSends ws).decoder = s.decoder := rfl
@[simp] theorem State.hostSends_port (ws : List Word) : (s.hostSends ws).port = s.port ++ ws := rfl
@[simp] theorem State.hostSends_wire (ws : List Word) : (s.hostSends ws).wire = s.wire := rfl
@[simp] theorem State.hostSends_frames (ws : List Word) : (s.hostSends ws).frames = s.frames := rfl
@[simp] theorem State.hostSends_draw (ws : List Word) : (s.hostSends ws).draw = s.draw := rfl

end

/-! `pixWrite` writes `fb` and nothing else. -/
section
variable (s : State) (x y : Int) (v : Bool)

@[simp] theorem State.pixWrite_cb : (s.pixWrite x y v).cb = s.cb := by
  unfold State.pixWrite; split <;> rfl
@[simp] theorem State.pixWrite_status : (s.pixWrite x y v).status = s.status := by
  unfold State.pixWrite; split <;> rfl
@[simp] theorem State.pixWrite_results : (s.pixWrite x y v).results = s.results := by
  unfold State.pixWrite; split <;> rfl
@[simp] theorem State.pixWrite_data : (s.pixWrite x y v).data = s.data := by
  unfold State.pixWrite; split <;> rfl
@[simp] theorem State.pixWrite_clk : (s.pixWrite x y v).clk = s.clk := by
  unfold State.pixWrite; split <;> rfl
@[simp] theorem State.pixWrite_decoder : (s.pixWrite x y v).decoder = s.decoder := by
  unfold State.pixWrite; split <;> rfl
@[simp] theorem State.pixWrite_port : (s.pixWrite x y v).port = s.port := by
  unfold State.pixWrite; split <;> rfl
@[simp] theorem State.pixWrite_wire : (s.pixWrite x y v).wire = s.wire := by
  unfold State.pixWrite; split <;> rfl
@[simp] theorem State.pixWrite_frames : (s.pixWrite x y v).frames = s.frames := by
  unfold State.pixWrite; split <;> rfl
@[simp] theorem State.pixWrite_draw : (s.pixWrite x y v).draw = s.draw := by
  unfold State.pixWrite; split <;> rfl
end

/-! `absorb` moves the decoder's position and the port and nothing else. -/
section
variable (s : State)

@[simp] theorem State.absorb_fb : s.absorb.fb = s.fb := by
  unfold State.absorb; split <;> rfl
@[simp] theorem State.absorb_cb : s.absorb.cb = s.cb := by
  unfold State.absorb; split <;> rfl
@[simp] theorem State.absorb_status : s.absorb.status = s.status := by
  unfold State.absorb; split <;> rfl
@[simp] theorem State.absorb_results : s.absorb.results = s.results := by
  unfold State.absorb; split <;> rfl
@[simp] theorem State.absorb_data : s.absorb.data = s.data := by
  unfold State.absorb; split <;> rfl
@[simp] theorem State.absorb_clk : s.absorb.clk = s.clk := by
  unfold State.absorb; split <;> rfl
@[simp] theorem State.absorb_wire : s.absorb.wire = s.wire := by
  unfold State.absorb; split <;> rfl
@[simp] theorem State.absorb_frames : s.absorb.frames = s.frames := by
  unfold State.absorb; split <;> rfl
@[simp] theorem State.absorb_draw : s.absorb.draw = s.draw := by
  unfold State.absorb; split <;> rfl
@[simp] theorem State.absorb_port : s.absorb.port = [] := by
  unfold State.absorb; split <;> rfl
@[simp] theorem State.absorb_decoder_words : s.absorb.decoder.words = s.decoder.words ++ s.port := by
  unfold State.absorb; split <;> simp_all [DecoderPos.words]
end

/-! Flags of `STATUS` after an update. -/

/-- The four bits of `STATUS` are distinct bits. -/
theorem StatusBit.mask_getLsbD (a b : StatusBit) : a.mask.getLsbD b.index = decide (a = b) := by
  cases a <;> cases b <;> decide

@[simp] theorem State.flag_setFlag (s : State) (a b : StatusBit) :
    (s.setFlag a).flag b = (s.flag b || decide (a = b)) := by
  simp [State.flag, StatusBit.mask_getLsbD]

@[simp] theorem State.flag_clearFlag (s : State) (a b : StatusBit) :
    (s.clearFlag a).flag b = (s.flag b && !decide (a = b)) := by
  have h : b.index < 32 := by cases b <;> decide
  have hm := StatusBit.mask_getLsbD a b
  simp only [State.flag, State.clearFlag_status, BitVec.getLsbD_and, BitVec.getLsbD_not, h, hm, decide_true,
    Bool.true_and]

/-- Raising an error sets its own bit and leaves the other three. -/
@[simp] theorem State.flag_raise (s : State) (e : ErrorCode) (b : StatusBit) :
    (s.raise e).flag b = (s.flag b || decide (e.bit = b)) := State.flag_setFlag s e.bit b

@[simp] theorem State.flag_emit (s : State) (es : List WireEvent) (b : StatusBit) : (s.emit es).flag b = s.flag b := rfl

/-- Flags are read from `STATUS` alone. -/
theorem State.flag_congr {s t : State} (h : t.status = s.status) (b : StatusBit) : t.flag b = s.flag b := by
  simp [State.flag, h]

/-- Bytes of `FB` are read from `fb` and the reset's draws alone. -/
theorem State.fbByte_congr {s t : State} (h : t.fb = s.fb) (hd : t.draw = s.draw) (i : Nat) : t.fbByte i = s.fbByte i := by
  simp [State.fbByte, h, hd]

/-- Bytes of `CB` are read from `cb` and the reset's draws alone. -/
theorem State.cbByte_congr {s t : State} (h : t.cb = s.cb) (hd : t.draw = s.draw) (i : Nat) : t.cbByte i = s.cbByte i := by
  simp [State.cbByte, h, hd]

end Sys2Proof.Machine
end

