-- ==== Sys2Proof/Laws/Memory.lean ====
section
/-! SUPPORT. The buffers: read after write, and that every memory operation keeps the canonical form. -/

namespace Sys2Proof.Machine

/-- Reading after a write: the written byte at its address, every other byte as before. -/
theorem Memory.read_write (m : Memory) (a : Nat) (b : Byte) (a' : Nat) :
    (m.write a b).read a' = if a' = a then some b else m.read a' := by
  induction m with
  | nil => simp [Memory.write, Memory.read, eq_comm]
  | cons c m ih =>
    obtain ⟨k, v⟩ := c
    unfold Memory.write
    split
    · subst_vars; by_cases h : a' = k <;> simp [Memory.read, h, eq_comm]
    · rename_i hk
      split
      · by_cases h : a' = a
        · subst h; simp [Memory.read]
        · simp [Memory.read, h, Ne.symm h]
      · by_cases h : a' = a
        · subst h; simp [Memory.read, ih, Ne.symm hk]
        · by_cases h2 : k = a' <;> simp [Memory.read, ih, h, h2]

/-- A buffer given byte by byte reads as it was given. -/
theorem Memory.read_map (f : Nat → Byte) (l : List Nat) (a : Nat) :
    Memory.read (l.map fun i => (i, f i)) a = if a ∈ l then some (f a) else none := by
  induction l with
  | nil => simp [Memory.read]
  | cons k l ih =>
    by_cases h : k = a
    · subst h; simp [Memory.read]
    · simp [Memory.read, ih, h, Ne.symm h]

theorem Memory.read_ofBytes (f : Nat → Byte) (a : Nat) :
    (Memory.ofBytes f).read a = if a < 1024 then some (f a) else none := by
  unfold Memory.ofBytes; simp [Memory.read_map]

/-- The canonical form as a statement about the list of addresses. -/
theorem Memory.rising_iff (m : Memory) : m.rising = true ↔ (m.map Prod.fst).Pairwise (· < ·) := by
  induction m with
  | nil => simp [Memory.rising]
  | cons c m ih =>
    cases m with
    | nil => simp [Memory.rising]
    | cons d m =>
      rw [Memory.rising, Bool.and_eq_true, ih]
      simp only [List.map_cons, List.pairwise_cons, decide_eq_true_eq, List.mem_cons, forall_eq_or_imp]
      constructor
      · rintro ⟨h, hd, hm⟩
        exact ⟨⟨h, fun a ha => h.trans (hd a ha)⟩, hd, hm⟩
      · rintro ⟨⟨h, _⟩, hd, hm⟩
        exact ⟨h, hd, hm⟩

theorem Memory.wf_iff (m : Memory) :
    m.wf = true ↔ (m.map Prod.fst).Pairwise (· < ·) ∧ ∀ c ∈ m, c.1 < 1024 := by
  simp [Memory.wf, Memory.rising_iff]

/-- The addresses listed after a write. -/
theorem Memory.mem_write (m : Memory) (a : Nat) (b : Byte) :
    ∀ c ∈ m.write a b, c.1 = a ∨ c ∈ m := by
  induction m with
  | nil => intro c hc; simp_all [Memory.write]
  | cons d m ih =>
    obtain ⟨k, v⟩ := d
    intro c hc
    unfold Memory.write at hc
    split at hc
    · rcases List.mem_cons.1 hc with rfl | h
      · exact .inl rfl
      · exact .inr (List.mem_cons_of_mem _ h)
    · split at hc
      · rcases List.mem_cons.1 hc with rfl | h
        · exact .inl rfl
        · exact .inr h
      · rcases List.mem_cons.1 hc with rfl | h
        · exact .inr List.mem_cons_self
        · exact (ih c h).imp_right (List.mem_cons_of_mem _)

/-- A write keeps the canonical form. -/
theorem Memory.wf_write {m : Memory} (h : m.wf = true) {a : Nat} (ha : a < 1024) (b : Byte) :
    (m.write a b).wf = true := by
  rw [Memory.wf_iff] at h ⊢
  obtain ⟨hr, hb⟩ := h
  refine ⟨?_, fun c hc => (Memory.mem_write m a b c hc).elim (fun e => e ▸ ha) (hb c)⟩
  clear ha hb
  induction m with
  | nil => simp [Memory.write]
  | cons d m ih =>
    obtain ⟨k, v⟩ := d
    simp only [List.map_cons, List.pairwise_cons] at hr
    unfold Memory.write
    split
    · subst_vars; simpa using hr
    · split
      · rename_i hlt
        simp only [List.map_cons, List.pairwise_cons, List.mem_cons, forall_eq_or_imp]
        exact ⟨⟨hlt, fun x hx => hlt.trans (hr.1 x hx)⟩, hr⟩
      · rename_i hne hge
        simp only [List.map_cons, List.pairwise_cons]
        refine ⟨fun x hx => ?_, ih hr.2⟩
        obtain ⟨c, hc, rfl⟩ := List.mem_map.1 hx
        rcases Memory.mem_write m a b c hc with e | h
        · omega
        · exact hr.1 _ (List.mem_map_of_mem h)

/-- A buffer given byte by byte is in canonical form. -/
theorem Memory.wf_ofBytes (f : Nat → Byte) : (Memory.ofBytes f).wf = true := by
  rw [Memory.wf_iff]
  unfold Memory.ofBytes
  refine ⟨?_, by simp⟩
  rw [List.map_map, show (Prod.fst ∘ fun i => (i, f i)) = id from rfl, List.map_id]
  exact List.pairwise_lt_range

/-! ## The buffers of a state -/

/-- `FB` after `FB[i] <- b`. -/
theorem State.fbByte_setFbByte (s : State) (i : Nat) (b : Byte) (j : Nat) :
    (s.setFbByte i b).fbByte j = if j = i then b else s.fbByte j := by
  unfold State.fbByte
  rw [State.setFbByte_fb, State.setFbByte_draw, Memory.read_write]
  split <;> rfl

/-- `FB` after all its bytes are written. -/
theorem State.fbByte_setFb (s : State) (f : Nat → Byte) {j : Nat} (h : j < 1024) : (s.setFb f).fbByte j = f j := by
  simp [State.fbByte, Memory.read_ofBytes, h]

/-- `CB` after the copy of a commit (R24). -/
theorem State.cbByte_copyFbToCb (s : State) {j : Nat} (h : j < 1024) : s.copyFbToCb.cbByte j = s.fbByte j := by
  simp [State.cbByte, Memory.read_ofBytes, h]

end Sys2Proof.Machine
end

