-- ==== Sys2Proof/Laws/Pixel.lean ====
section
/-! SUPPORT. Pixels: where a pixel lies, one pixel written, and a list of pixels painted. -/

namespace Sys2Proof.Machine

/-- The byte of an in-bounds pixel is a byte of the buffer. -/
theorem pixIndex_lt {x y : Int} (h : InBounds x y) : (pixIndex x y).1 < 1024 ∧ (pixIndex x y).2 < 8 := by
  simp only [InBounds, pixIndex, Config.W, Config.H, Config.rowBytes] at *
  omega

/-- Two in-bounds pixels at one bit of one byte are one pixel (R46). -/
theorem pixIndex_inj {x y x' y' : Int} (h : InBounds x y) (h' : InBounds x' y')
    (e1 : (pixIndex x y).1 = (pixIndex x' y').1) (e2 : (pixIndex x y).2 = (pixIndex x' y').2) : x = x' ∧ y = y' := by
  simp only [InBounds, pixIndex, Config.W, Config.H, Config.rowBytes] at *
  omega

/-- One bit of a byte after one bit is put. -/
theorem getLsbD_putBit (byte : Byte) (b : Nat) (v : Bool) (j : Nat) (hb : b < 8) (hj : j < 8) :
    (putBit byte b v).getLsbD j = if j = b then v else byte.getLsbD j := by
  unfold putBit
  have : ∀ b < 8, ∀ j < 8, ((1#8 <<< b).getLsbD j = decide (j = b)) ∧
      (∀ v : Bool, ((BitVec.ofBool v).setWidth 8 <<< b).getLsbD j = (v && decide (j = b))) := by decide
  obtain ⟨h1, h2⟩ := this b hb j hj
  rw [BitVec.getLsbD_or, BitVec.getLsbD_and, BitVec.getLsbD_not, h1, h2]
  by_cases h : j = b <;> simp [h, hj, hb]

/-- `PixWrite` writes at most one byte of `FB`, the pixel's own (R100). -/
theorem State.fbByte_pixWrite (s : State) (x y : Int) (v : Bool) (j : Nat) :
    (s.pixWrite x y v).fbByte j =
      if InBounds x y ∧ j = (pixIndex x y).1 then putBit (s.fbByte j) (pixIndex x y).2 v else s.fbByte j := by
  unfold State.pixWrite
  by_cases h : InBounds x y
  · rw [if_pos h, State.fbByte_setFbByte]
    by_cases hj : j = (pixIndex x y).1
    · rw [if_pos hj, if_pos ⟨h, hj⟩, hj]
    · rw [if_neg hj, if_neg fun c => hj c.2]
  · rw [if_neg h, if_neg (fun c => h c.1)]

/-- A pixel after one pixel is written: the written pixel if it is in bounds, every other pixel as before. -/
theorem State.pixRead_pixWrite (s : State) (x y : Int) (v : Bool) (x' y' : Int) :
    (s.pixWrite x y v).pixRead x' y' = if InBounds x' y' ∧ x' = x ∧ y' = y then v else s.pixRead x' y' := by
  unfold State.pixRead
  by_cases h' : InBounds x' y'
  · rw [if_pos h', if_pos h', State.fbByte_pixWrite]
    by_cases h : InBounds x y ∧ (pixIndex x' y').1 = (pixIndex x y).1
    · rw [if_pos h, getLsbD_putBit _ _ _ _ (pixIndex_lt h.1).2 (pixIndex_lt h').2]
      by_cases e : (pixIndex x' y').2 = (pixIndex x y).2
      · rw [if_pos e, if_pos ⟨h', pixIndex_inj h' h.1 h.2 e⟩]
      · rw [if_neg e, if_neg]
        rintro ⟨-, rfl, rfl⟩
        exact e rfl
    · rw [if_neg h, if_neg]
      rintro ⟨-, rfl, rfl⟩
      exact h ⟨h', rfl⟩
  · simp [h']

/-- A pixel out of bounds is not written: no state changes (R100). -/
theorem State.pixWrite_outOfBounds {s : State} {x y : Int} (h : ¬ InBounds x y) (v : Bool) : s.pixWrite x y v = s :=
  if_neg h

theorem State.wf_pixWrite {s : State} (h : s.fb.wf = true) (x y : Int) (v : Bool) : (s.pixWrite x y v).fb.wf = true := by
  unfold State.pixWrite
  split
  · exact Memory.wf_write h (pixIndex_lt ‹_›).1 _
  · exact h

/-! ## Painting a list of pixels -/

@[simp] theorem State.paint_nil (s : State) (v : Bool) : s.paint [] v = s := rfl
@[simp] theorem State.paint_cons (s : State) (p : Int × Int) (ps : List (Int × Int)) (v : Bool) :
    s.paint (p :: ps) v = (s.pixWrite p.1 p.2 v).paint ps v := rfl
theorem State.paint_append (s : State) (ps qs : List (Int × Int)) (v : Bool) :
    s.paint (ps ++ qs) v = (s.paint ps v).paint qs v := List.foldl_append

/-- Painting writes `fb` and nothing else. -/
theorem State.paint_eq (s : State) (ps : List (Int × Int)) (v : Bool) :
    s.paint ps v = { s with fb := (s.paint ps v).fb } := by
  induction ps generalizing s with
  | nil => rfl
  | cons p ps ih => rw [State.paint_cons, ih]; simp

/-- A pixel after a list of pixels is painted: `v` if it is in the list and in bounds, else as before. -/
theorem State.pixRead_paint (s : State) (ps : List (Int × Int)) (v : Bool) (x y : Int) :
    (s.paint ps v).pixRead x y = if InBounds x y ∧ (x, y) ∈ ps then v else s.pixRead x y := by
  induction ps generalizing s with
  | nil => simp
  | cons p ps ih =>
    rw [State.paint_cons, ih, State.pixRead_pixWrite]
    have hm : (x, y) ∈ p :: ps ↔ (x = p.1 ∧ y = p.2) ∨ (x, y) ∈ ps := by rw [List.mem_cons, Prod.ext_iff]
    by_cases h : InBounds x y ∧ (x, y) ∈ ps
    · rw [if_pos h, if_pos ⟨h.1, hm.2 (.inr h.2)⟩]
    · rw [if_neg h]
      exact if_congr ⟨fun c => ⟨c.1, hm.2 (.inl c.2)⟩,
        fun c => ⟨c.1, (hm.1 c.2).resolve_right fun m => h ⟨c.1, m⟩⟩⟩ rfl rfl

/-- A byte no painted pixel lies in is as before. -/
theorem State.fbByte_paint (s : State) (ps : List (Int × Int)) (v : Bool) (a : Nat)
    (h : ∀ p ∈ ps, InBounds p.1 p.2 → (pixIndex p.1 p.2).1 ≠ a) : (s.paint ps v).fbByte a = s.fbByte a := by
  induction ps generalizing s with
  | nil => rfl
  | cons p ps ih =>
    rw [State.paint_cons, ih _ fun q hq => h q (List.mem_cons_of_mem _ hq), State.fbByte_pixWrite, if_neg]
    rintro ⟨hb, rfl⟩
    exact h p List.mem_cons_self hb rfl

/-- Painting only pixels out of bounds changes nothing. -/
theorem State.paint_outOfBounds (s : State) (ps : List (Int × Int)) (v : Bool)
    (h : ∀ p ∈ ps, ¬ InBounds p.1 p.2) : s.paint ps v = s := by
  induction ps generalizing s with
  | nil => rfl
  | cons p ps ih =>
    rw [State.paint_cons, State.pixWrite_outOfBounds (h p List.mem_cons_self)]
    exact ih s fun q hq => h q (List.mem_cons_of_mem _ hq)

theorem State.wf_paint {s : State} (h : s.fb.wf = true) (ps : List (Int × Int)) (v : Bool) :
    (s.paint ps v).fb.wf = true := by
  induction ps generalizing s with
  | nil => exact h
  | cons p ps ih => exact ih (State.wf_pixWrite h _ _ _)

/-- What a pixel write leaves in `FB` depends on `FB` and the reset's draws alone. -/
theorem State.pixWrite_fb_congr {s t : State} (h : t.fb = s.fb) (hd : t.draw = s.draw) (x y : Int) (v : Bool) :
    (t.pixWrite x y v).fb = (s.pixWrite x y v).fb := by
  unfold State.pixWrite
  split
  · simp only [State.setFbByte_fb, h, State.fbByte_congr h hd]
  · exact h

/-- What painting leaves in `FB` depends on `FB` and the reset's draws alone. -/
theorem State.paint_fb_congr {s t : State} (h : t.fb = s.fb) (hd : t.draw = s.draw) (ps : List (Int × Int)) (v : Bool) :
    (t.paint ps v).fb = (s.paint ps v).fb := by
  induction ps generalizing s t with
  | nil => exact h
  | cons p ps ih => exact ih (State.pixWrite_fb_congr h hd p.1 p.2 v) (by simpa using hd)

/-! ## The pixels of the drawing commands -/

theorem mem_intSpan {lo hi x : Int} : x ∈ intSpan lo hi ↔ lo ≤ x ∧ x ≤ hi := by
  simp only [intSpan, List.mem_map, List.mem_range]
  constructor
  · rintro ⟨k, hk, rfl⟩; omega
  · rintro ⟨h1, h2⟩; exact ⟨(x - lo).toNat, by omega, by omega⟩

end Sys2Proof.Machine
end

