-- ==== Sys2Proof/Laws/Encoding.lean ====
section
/-! SUPPORT. The fields of an encoded header and of an encoded operand word read back as they were put. -/

namespace Sys2Proof

/-! ## Header words (R72, R81) -/

@[simp] theorem opField_header (op : BitVec 4) (v : Bool) (len : BitVec 16) : opField (header op v len) = op := by
  apply BitVec.eq_of_getLsbD_eq
  intro i hi
  have : i = 0 ∨ i = 1 ∨ i = 2 ∨ i = 3 := by omega
  rcases this with rfl | rfl | rfl | rfl <;> cases v <;> simp [opField, header]

@[simp] theorem vField_header (op : BitVec 4) (v : Bool) (len : BitVec 16) : vField (header op v len) = v := by
  cases v <;> simp [vField, header]

@[simp] theorem rsvField_header (op : BitVec 4) (v : Bool) (len : BitVec 16) : rsvField (header op v len) = 0 := by
  apply BitVec.eq_of_getLsbD_eq
  intro i hi
  have h1 : 16 + i < 28 := by omega
  cases v <;> simp [rsvField, header, h1]
  interval_cases i <;> simp

@[simp] theorem lenField_header (op : BitVec 4) (v : Bool) (len : BitVec 16) : lenField (header op v len) = len := by
  apply BitVec.eq_of_getLsbD_eq
  intro i hi
  have h1 : i < 28 := by omega
  have h3 : i < 32 := by omega
  cases v <;> simp [lenField, header, h1, h3, hi]
  interval_cases i <;> simp

/-- How many operand words each operation has, `n` being the `LEN` field (R75). -/
def Op.operands (n : Nat) : Op → Nat
  | .setPixel | .getPixel => 1
  | .drawRect | .drawGlyph => 2
  | .drawText => 1 + n
  | .fill | .setup | .commitDiff | .commitFull | .readStatus => 0
  | .reserved0 | .reserved7 | .reservedC => 0

/-- The operand words of a header whose operation is known. -/
theorem operandWords_eq {h : Word} {op : Op} (e : opOf (opField h) = op) :
    operandWords h = op.operands (lenField h).toNat := by
  subst e; rfl

/-- The operation of an encoded header. -/
theorem opOf_header (op : BitVec 4) (v : Bool) (len : BitVec 16) : opOf (opField (header op v len)) = opOf op :=
  congrArg opOf (opField_header op v len)

/-- The operand words of an encoded header. -/
theorem operandWords_header (op : BitVec 4) (v : Bool) (len : BitVec 16) :
    operandWords (header op v len) = (opOf op).operands len.toNat := by
  rw [operandWords_eq (opOf_header op v len), lenField_header]

/-! ## Operand words (R73, R74, R81) -/

/-- A coordinate in range survives its 16-bit field. -/
theorem toInt_ofInt_coord {c : Int} (h : coordOk c) : (BitVec.ofInt 16 c).toInt = c := by
  rw [BitVec.toInt_ofInt]
  obtain ⟨h1, h2⟩ := h
  exact Int.bmod_eq_of_le_mul_two (by omega) (by omega)

theorem low_encodeXY (x y : Int) : (encodeXY x y).extractLsb' 0 16 = BitVec.ofInt 16 x := by
  apply BitVec.eq_of_getLsbD_eq
  intro i hi
  simp [encodeXY, hi, show i < 32 by omega]

theorem high_encodeXY (x y : Int) : (encodeXY x y).extractLsb' 16 16 = BitVec.ofInt 16 y := by
  apply BitVec.eq_of_getLsbD_eq
  intro i hi
  simp [encodeXY, hi, show 16 + i < 32 by omega]

theorem xOfXY_encodeXY {x : Int} (h : coordOk x) (y : Int) : xOfXY (encodeXY x y) = x := by
  rw [xOfXY, low_encodeXY, toInt_ofInt_coord h]

theorem yOfXY_encodeXY (x : Int) {y : Int} (h : coordOk y) : yOfXY (encodeXY x y) = y := by
  rw [yOfXY, high_encodeXY, toInt_ofInt_coord h]

/-- The coordinates of any word are in range (R73, R79). -/
theorem coordOk_xOfXY (p : Word) : coordOk (xOfXY p) := by
  have h := BitVec.toInt_lt (x := p.extractLsb' 0 16)
  have h' := BitVec.le_toInt (x := p.extractLsb' 0 16)
  unfold coordOk xOfXY; omega

theorem coordOk_yOfXY (p : Word) : coordOk (yOfXY p) := by
  have h := BitVec.toInt_lt (x := p.extractLsb' 16 16)
  have h' := BitVec.le_toInt (x := p.extractLsb' 16 16)
  unfold coordOk yOfXY; omega

/-- Every `XY` word is the encoding of its coordinates. -/
theorem encodeXY_decoded (p : Word) : encodeXY (xOfXY p) (yOfXY p) = p := by
  apply BitVec.eq_of_getLsbD_eq
  intro i hi
  unfold encodeXY xOfXY yOfXY
  rw [BitVec.ofInt_toInt, BitVec.ofInt_toInt]
  by_cases h : i < 16
  · simp [h, hi]
  · simp [h, hi, show i - 16 < 16 by omega, show 16 + (i - 16) = i by omega]

theorem cpOfCP_encodeCP {cp : Nat} (h : codepointOk cp) : cpOfCP (encodeCP cp) = cp := by
  unfold codepointOk at h
  rw [cpOfCP, encodeCP, BitVec.toNat_ofNat]
  omega

theorem codepointOk_cpOfCP (q : Word) : codepointOk (cpOfCP q) := q.isLt

@[simp] theorem encodeCP_decoded (q : Word) : encodeCP (cpOfCP q) = q := by
  simp [encodeCP, cpOfCP]

/-! ## Reserved headers (R78) -/

theorem opField_reservedHeader (o : BitVec 4) (rest : BitVec 28) : opField (reservedHeader o rest) = o := by
  apply BitVec.eq_of_getLsbD_eq
  intro i hi
  simp [opField, reservedHeader, hi, show 28 + i < 32 by omega]

theorem low_reservedHeader (o : BitVec 4) (rest : BitVec 28) : (reservedHeader o rest).extractLsb' 0 28 = rest := by
  apply BitVec.eq_of_getLsbD_eq
  intro i hi
  simp [reservedHeader, hi, show i < 32 by omega]

theorem low_reservedHeaderC (rest : BitVec 30) : (reservedHeaderC rest).extractLsb' 0 30 = rest := by
  apply BitVec.eq_of_getLsbD_eq
  intro i hi
  simp [reservedHeaderC, hi, show i < 32 by omega]
  interval_cases i <;> simp

/-- A header whose two top bits are set has one of the operations 0xC to 0xF. -/
theorem opOf_reservedHeaderC (rest : BitVec 30) : opOf (opField (reservedHeaderC rest)) = .reservedC := by
  have h3 : (opField (reservedHeaderC rest)).getLsbD 3 = true := by simp [opField, reservedHeaderC]
  have h2 : (opField (reservedHeaderC rest)).getLsbD 2 = true := by simp [opField, reservedHeaderC]
  revert h3 h2
  generalize opField (reservedHeaderC rest) = o
  revert o
  decide

/-! ## Wire frames (R83, R84) -/

/-- A frame reads back as the kind and the byte it was made from. -/
theorem decodeFrame_frameOf (rs : Bool) (v : Byte) :
    decodeFrame (frameOf rs v) = some (if rs then .frameData v else .frameCmd v) := by
  revert v rs
  decide +kernel

end Sys2Proof
end

