-- ==== Sys2Proof/Laws/Wire.lean ====
section
/-! SUPPORT. The wire: emitting a list of events is emitting them one after another; what a frame is, bit by bit; what
the observer of the display image makes of whole frames and of whole groups of frames. -/

namespace Sys2Proof.Machine

@[simp] theorem dataAfter_append (d : Bool) (es fs : List WireEvent) :
    dataAfter d (es ++ fs) = dataAfter (dataAfter d es) fs := by
  induction es generalizing d with
  | nil => rfl
  | cons e es ih => cases e <;> exact ih _

@[simp] theorem clkAfter_append (c : Bool) (es fs : List WireEvent) :
    clkAfter c (es ++ fs) = clkAfter (clkAfter c es) fs := by
  induction es generalizing c with
  | nil => rfl
  | cons e es ih => cases e <;> exact ih _

/-- Emitting two lists one after the other is emitting them joined. -/
theorem State.emit_append (s : State) (es fs : List WireEvent) : s.emit (es ++ fs) = (s.emit es).emit fs := by
  simp [State.emit]

/-- `emit` is the fold of `emitEvent`: each event in turn, as R160 and R165 give it. -/
theorem emit_eq_foldl (s : State) (es : List WireEvent) : es.foldl State.emitEvent s = s.emit es := by
  induction es generalizing s with
  | nil => simp [State.emit, dataAfter, clkAfter]
  | cons e es ih =>
    rw [List.foldl_cons, ih]
    cases e <;> simp [State.emit, State.emitEvent, State.emitBit, State.holdWait, dataAfter, clkAfter]

/-- The 24 bits of a frame, first bit sent first (R161, R82). -/
theorem frameEvents_bits (rs : Bool) (v : Byte) :
    frameEvents rs v =
      ([true, true, true, true, true, false, rs, false, v.getLsbD 7, v.getLsbD 6, v.getLsbD 5, v.getLsbD 4,
        false, false, false, false, v.getLsbD 3, v.getLsbD 2, v.getLsbD 1, v.getLsbD 0,
        false, false, false, false].map .bit) := by
  revert rs v
  decide +kernel

@[simp] theorem frameEvents_length (rs : Bool) (v : Byte) : (frameEvents rs v).length = 24 := by
  rw [frameEvents_bits]; rfl

/-- After a frame DATA is 0 (R35). -/
@[simp] theorem dataAfter_frameEvents (d rs : Bool) (v : Byte) : dataAfter d (frameEvents rs v) = false := by
  rw [frameEvents_bits]; rfl

/-- After a frame CLK is 0 (R28). -/
@[simp] theorem clkAfter_frameEvents (c rs : Bool) (v : Byte) : clkAfter c (frameEvents rs v) = false := by
  rw [frameEvents_bits]; rfl

/-! ## Events that leave the lines low -/

@[simp] theorem dataAfter_sendWord (k : Config.CommandBytes) (s : State) (w : Nat) (d : Bool) :
    dataAfter d (sendWord k s w) = false := by simp [sendWord, writeCmd, writeData]
@[simp] theorem clkAfter_sendWord (k : Config.CommandBytes) (s : State) (w : Nat) (c : Bool) :
    clkAfter c (sendWord k s w) = false := by simp [sendWord, writeCmd, writeData]

/-- From low lines, a list of word transfers ends with the lines low. -/
theorem lines_sendWords (k : Config.CommandBytes) (s : State) (ws : List Nat) :
    dataAfter false (ws.flatMap (sendWord k s)) = false ∧ clkAfter false (ws.flatMap (sendWord k s)) = false := by
  induction ws with
  | nil => exact ⟨rfl, rfl⟩
  | cons w ws ih => simpa using ih

/-- The lines after a list of word transfers: low, unless nothing was sent. -/
theorem lines_after_sendWords (k : Config.CommandBytes) (s : State) (ws : List Nat) (d c : Bool) :
    dataAfter d (ws.flatMap (sendWord k s)) = (d && decide (ws = [])) ∧
      clkAfter c (ws.flatMap (sendWord k s)) = (c && decide (ws = [])) := by
  cases ws with
  | nil => simp [dataAfter, clkAfter]
  | cons w ws => simp [lines_sendWords]

theorem sendWords_length (k : Config.CommandBytes) (s : State) (ws : List Nat) :
    (ws.flatMap (sendWord k s)).length = 96 * ws.length := by
  induction ws with
  | nil => rfl
  | cons w ws ih =>
    rw [List.flatMap_cons, List.length_append, ih, List.length_cons]
    simp [sendWord, writeCmd, writeData]
    omega

@[simp] theorem dataAfter_setup (k : Config.CommandBytes) (t : Nat) (d : Bool) : dataAfter d (setupEvents k t) = false := by
  simp [setupEvents, writeCmd, dataAfter]
@[simp] theorem clkAfter_setup (k : Config.CommandBytes) (t : Nat) (c : Bool) : clkAfter c (setupEvents k t) = false := by
  simp [setupEvents, writeCmd, clkAfter]

/-! ## The traversal and the address map -/

/-- The traversal visits the words 0 to 511 in order (R171). -/
theorem traverse_eq : traverse = List.range 512 := by unfold traverse; decide +kernel

/-- The address map on the words of a buffer: in range, and one word per address (R51, R52). -/
theorem addrOf_lt {w : Nat} (h : w < 512) :
    (addrOf (wordRow w) (wordCol w)).1 < 32 ∧ (addrOf (wordRow w) (wordCol w)).2 < 16 := by
  unfold addrOf
  split <;> simp only [wordRow, wordCol, Config.rowWords, Config.bankRows, Config.bankColOffset] at * <;> omega

theorem addrOf_inj {w w' : Nat} (e : addrOf (wordRow w) (wordCol w) = addrOf (wordRow w') (wordCol w')) : w = w' := by
  unfold addrOf at e
  split at e <;> split at e <;> rw [Prod.mk.injEq] at e <;>
    simp only [wordRow, wordCol, Config.rowWords, Config.bankRows, Config.bankColOffset] at * <;> omega

/-- Two different addresses below 32 have different address bytes, whatever `CMD_ADDR` is. -/
theorem addrByte_inj {k : Config.CommandBytes} {a b : Nat} (ha : a < 32) (hb : b < 32)
    (e : addrByte k a = addrByte k b) : a = b := by
  have e' : BitVec.ofNat 8 a = BitVec.ofNat 8 b := (BitVec.add_right_inj k.addr).1 e
  have := congrArg BitVec.toNat e'
  simp only [BitVec.toNat_ofNat] at this
  omega

/-! ## The observer -/

/-- A frame's bits, received, are the frame sent. -/
theorem receivedFrame_frame (rs : Bool) (v : Byte) :
    receivedFrame (frameBitList (frameOf rs v)) = if rs then .data v else .cmd v := by
  revert rs v
  decide +kernel

/-- Bits that do not complete a frame are collected. -/
theorem take_bits_partial (k : Config.CommandBytes) (bs : List Bool) (o : Observer) (h : o.bits.length + bs.length < 24) :
    (bs.map WireEvent.bit).foldl (Observer.take k) o = { o with bits := o.bits ++ bs } := by
  induction bs generalizing o with
  | nil => simp
  | cons b bs ih =>
    rw [List.length_cons] at h
    rw [List.map_cons, List.foldl_cons, Observer.take, if_pos (by simp only [Config.frameBits]; omega),
      ih _ (by simp only [List.length_append, List.length_cons, List.length_nil]; omega)]
    simp

/-- Twenty-four bits from a frame's start are one received frame. -/
theorem take_bits_frame (k : Config.CommandBytes) (bs : List Bool) (hl : bs.length = 24) (o : Observer)
    (h : o.bits = []) :
    (bs.map WireEvent.bit).foldl (Observer.take k) o =
      Observer.settle k ⟨[], o.group ++ [receivedFrame bs], o.image⟩ := by
  obtain ⟨init, last, rfl⟩ : ∃ init last, bs = init ++ [last] :=
    ⟨bs.dropLast, bs.getLast (by rintro rfl; simp at hl), (List.dropLast_append_getLast _).symm⟩
  rw [List.length_append, List.length_cons, List.length_nil] at hl
  rw [List.map_append, List.foldl_append, take_bits_partial k init o (by rw [h, List.length_nil]; omega), h]
  simp only [List.nil_append, List.map_cons, List.map_nil, List.foldl_cons, List.foldl_nil, Observer.take,
    Config.frameBits]
  rw [if_neg (by omega)]

/-- A frame sent from a frame's start is received whole. -/
theorem take_frame (k : Config.CommandBytes) (rs : Bool) (v : Byte) (g : List Received)
    (image : Nat → Nat → Option (BitVec 16)) :
    (frameEvents rs v).foldl (Observer.take k) ⟨[], g, image⟩ =
      Observer.settle k ⟨[], g ++ [if rs then .data v else .cmd v], image⟩ := by
  rw [frameEvents, take_bits_frame k _ (by simp [frameBitList]) _ rfl, receivedFrame_frame]

/-- A word transfer received at a group's start sets its address and leaves the others (R180). -/
theorem take_sendWord (k : Config.CommandBytes) (s : State) (w : Nat) (o : Observer) (hb : o.bits = [])
    (hg : o.group = []) :
    (sendWord k s w).foldl (Observer.take k) o =
      ⟨[], [], fun ra ca =>
        if addrByte k ra = addrByte k (addrOf (wordRow w) (wordCol w)).1 ∧
            addrByte k ca = addrByte k (addrOf (wordRow w) (wordCol w)).2 ∧ ra < 32 ∧ ca < 16
        then some (s.fbWord w) else o.image ra ca⟩ := by
  obtain ⟨bits, group, image⟩ := o
  subst hb hg
  simp only [sendWord, writeCmd, writeData, List.foldl_append]
  rw [take_frame]
  simp only [List.nil_append, Observer.settle, Bool.false_eq_true, if_false]
  rw [take_frame]
  simp only [List.cons_append, List.nil_append, Observer.settle, Bool.false_eq_true, if_false]
  rw [take_frame]
  simp only [List.cons_append, List.nil_append, Observer.settle, if_true]
  rw [take_frame]
  simp only [List.cons_append, List.nil_append, Observer.settle, if_true, State.fbWord]

/-- A SETUP received at a group's start makes every address unknown (R180). -/
theorem take_setup (k : Config.CommandBytes) (t : Nat) (o : Observer) (hb : o.bits = []) (hg : o.group = []) :
    (setupEvents k t).foldl (Observer.take k) o = ⟨[], [], fun _ _ => none⟩ := by
  obtain ⟨bits, group, image⟩ := o
  subst hb hg
  simp only [setupEvents, writeCmd, List.foldl_append]
  rw [take_frame]
  simp only [List.nil_append, Observer.settle, Bool.false_eq_true, if_false]
  rw [take_frame]
  simp only [List.cons_append, List.nil_append, Observer.settle, Bool.false_eq_true, if_false, List.foldl_cons,
    List.foldl_nil, Observer.take]
  rw [take_frame]
  simp only [List.cons_append, List.nil_append, Observer.settle, Bool.false_eq_true, if_false]
  rw [take_frame]
  simp only [List.cons_append, List.nil_append, Observer.settle, Bool.false_eq_true, if_false, and_self, if_true]

/-- A list of word transfers received at a group's start: each listed word is set at its address (R180). -/
theorem take_sendWords (k : Config.CommandBytes) (s : State) (ws : List Nat) (hws : ∀ w ∈ ws, w < 512) (o : Observer)
    (hb : o.bits = []) (hg : o.group = []) :
    ((ws.flatMap (sendWord k s)).foldl (Observer.take k) o).bits = [] ∧
    ((ws.flatMap (sendWord k s)).foldl (Observer.take k) o).group = [] ∧
    ∀ w, w < 512 →
      ((ws.flatMap (sendWord k s)).foldl (Observer.take k) o).image
          (addrOf (wordRow w) (wordCol w)).1 (addrOf (wordRow w) (wordCol w)).2 =
        if w ∈ ws then some (s.fbWord w)
        else o.image (addrOf (wordRow w) (wordCol w)).1 (addrOf (wordRow w) (wordCol w)).2 := by
  induction ws generalizing o with
  | nil => exact ⟨hb, hg, fun w _ => by simp⟩
  | cons w0 ws ih =>
    simp only [List.flatMap_cons, List.foldl_append]
    rw [take_sendWord k s w0 o hb hg]
    obtain ⟨h1, h2, h3⟩ := ih (fun w hw => hws w (List.mem_cons_of_mem _ hw))
      ⟨[], [], fun ra ca =>
        if addrByte k ra = addrByte k (addrOf (wordRow w0) (wordCol w0)).1 ∧
            addrByte k ca = addrByte k (addrOf (wordRow w0) (wordCol w0)).2 ∧ ra < 32 ∧ ca < 16
        then some (s.fbWord w0) else o.image ra ca⟩ rfl rfl
    refine ⟨h1, h2, fun w hw => ?_⟩
    rw [h3 w hw]
    by_cases hm : w ∈ ws
    · rw [if_pos hm, if_pos (List.mem_cons_of_mem _ hm)]
    · rw [if_neg hm]
      have hl := addrOf_lt hw
      have hl0 := addrOf_lt (hws w0 List.mem_cons_self)
      by_cases e : w = w0
      · subst e
        rw [if_pos (List.mem_cons_self : w ∈ w :: ws)]
        exact if_pos ⟨rfl, rfl, hl⟩
      · rw [if_neg (fun c => (List.mem_cons.1 c).elim e hm)]
        refine if_neg ?_
        rintro ⟨e1, e2, _⟩
        exact e (addrOf_inj (Prod.ext (addrByte_inj hl.1 hl0.1 e1) (addrByte_inj (by omega) (by omega) e2)))

theorem observe_append (k : Config.CommandBytes) (es fs : List WireEvent) :
    observe k (es ++ fs) = fs.foldl (Observer.take k) (observe k es) := by
  unfold observe; rw [List.foldl_append]

end Sys2Proof.Machine
end

