-- ==== Sys2Proof/Laws/Exec.lean ====
section
/-! SUPPORT. What each operation does, as one equation each over the shared operations, and one inversion of `exec`: the
ways an operation can change the state. -/

namespace Sys2Proof.Machine

section
variable (s : State)
theorem exec_setPixel (x y : Int) (v : Bool) : exec (.setPixel x y v) s = .next (s.pixWrite x y v) := rfl
theorem exec_getPixel (x y : Int) :
    exec (.getPixel x y) s = .next (s.pushResult ((BitVec.ofBool (s.pixRead x y)).setWidth 32)) := rfl
theorem exec_fill (v : Bool) : exec (.fill v) s = .next (s.setFb fun _ => if v then 0xFF else 0x00) := rfl
theorem exec_drawRect (x0 y0 x1 y1 : Int) (v : Bool) :
    exec (.drawRect x0 y0 x1 y1 v) s = .next (s.paint (rectPixels x0 y0 x1 y1) v) := rfl
theorem exec_drawGlyph (x y : Int) (cp : Nat) (v : Bool) :
    exec (.drawGlyph x y cp v) s = .next (s.paint (glyphPixels Config.atlas x y cp) v) := rfl
theorem exec_drawText (x y : Int) (cps : List Nat) (v : Bool) :
    exec (.drawText x y cps v) s = .next (s.drawTextFrom Config.atlas x v x y cps) := rfl
theorem exec_setup :
    exec .setup s =
      .next (((s.emit (setupEvents Config.commandBytes Config.clearWait)).setFlag .init).clearFlag .synced) := rfl
theorem exec_commitDiff (h : s.flag .init = true) :
    exec .commitDiff s =
      .next (s.commit Config.commandBytes (traverse.filter fun w => !s.flag .synced || s.differs w)) := if_pos h
theorem exec_commitDiff_refused (h : s.flag .init = false) : exec .commitDiff s = .next (s.raise .orderError) :=
  if_neg (by simp [h])
theorem exec_commitFull (h : s.flag .init = true) :
    exec .commitFull s = .next (s.commit Config.commandBytes traverse) := if_pos h
theorem exec_commitFull_refused (h : s.flag .init = false) : exec .commitFull s = .next (s.raise .orderError) :=
  if_neg (by simp [h])
theorem exec_readStatus : exec .readStatus s = .next (s.pushResult s.status) := rfl
theorem exec_frameCmd (v : Byte) : exec (.frameCmd v) s = .next (s.emit (frameEvents false v)) := rfl
theorem exec_frameData (v : Byte) : exec (.frameData v) s = .next (s.emit (frameEvents true v)) := rfl
theorem exec_reserved0 (r : BitVec 28) : exec (.reserved0 r) s = .next (s.raise .illegal) := rfl
theorem exec_reserved7 (r : BitVec 28) : exec (.reserved7 r) s = .next (s.raise .illegal) := rfl
theorem exec_reservedC (r : BitVec 30) : exec (.reservedC r) s = .next (s.raise .illegal) := rfl
end

/-! ## A commit -/

section
variable (k : Config.CommandBytes) (ws : List Nat) (s : State)
@[simp] theorem State.commit_fb : (s.commit k ws).fb = s.fb := by simp only [State.commit, State.setFlag, State.copyFbToCb, State.emit]
@[simp] theorem State.commit_cb : (s.commit k ws).cb = Memory.ofBytes s.fbByte := by
  simp only [State.commit, State.setFlag_cb, State.copyFbToCb_cb]
  congr 1
@[simp] theorem State.commit_status : (s.commit k ws).status = s.status ||| StatusBit.synced.mask := by simp only [State.commit, State.setFlag, State.copyFbToCb, State.emit]
@[simp] theorem State.commit_results : (s.commit k ws).results = s.results := by simp only [State.commit, State.setFlag, State.copyFbToCb, State.emit]
@[simp] theorem State.commit_data : (s.commit k ws).data = dataAfter s.data (ws.flatMap (sendWord k s)) := by simp only [State.commit, State.setFlag, State.copyFbToCb, State.emit]
@[simp] theorem State.commit_clk : (s.commit k ws).clk = clkAfter s.clk (ws.flatMap (sendWord k s)) := by simp only [State.commit, State.setFlag, State.copyFbToCb, State.emit]
@[simp] theorem State.commit_decoder : (s.commit k ws).decoder = s.decoder := by simp only [State.commit, State.setFlag, State.copyFbToCb, State.emit]
@[simp] theorem State.commit_port : (s.commit k ws).port = s.port := by simp only [State.commit, State.setFlag, State.copyFbToCb, State.emit]
@[simp] theorem State.commit_wire : (s.commit k ws).wire = s.wire ++ ws.flatMap (sendWord k s) := by simp only [State.commit, State.setFlag, State.copyFbToCb, State.emit]
@[simp] theorem State.commit_frames : (s.commit k ws).frames = s.frames := by simp only [State.commit, State.setFlag, State.copyFbToCb, State.emit]
@[simp] theorem State.commit_draw : (s.commit k ws).draw = s.draw := by simp only [State.commit, State.setFlag, State.copyFbToCb, State.emit]

@[simp] theorem State.flag_commit (b : StatusBit) :
    (s.commit k ws).flag b = (s.flag b || decide (StatusBit.synced = b)) := by
  unfold State.commit; rw [State.flag_setFlag]; rfl

/-- After a commit CB is FB (R24). -/
theorem State.cbByte_commit {i : Nat} (h : i < 1024) : (s.commit k ws).cbByte i = s.fbByte i := by
  simp [State.cbByte, Memory.read_ofBytes, h]
end

/-! ## Text is painted -/

/-- The pixels a text writes, glyph by glyph from the cursor. -/
def textPixels (a : Config.Atlas) (x : Int) : (cx cy : Int) → List Nat → List (Int × Int)
  | _, _, [] => []
  | cx, cy, cp :: cps =>
    if cp = Config.newline then textPixels a x x (cy + Config.lineAdvance) cps
    else glyphPixels a cx cy cp ++ textPixels a x (cx + glyphWidth cp) cy cps

/-- DRAW_TEXT paints its glyphs' pixels and nothing of its own (R137). -/
theorem drawTextFrom_eq_paint (a : Config.Atlas) (x : Int) (v : Bool) (cx cy : Int) (cps : List Nat) (s : State) :
    s.drawTextFrom a x v cx cy cps = s.paint (textPixels a x cx cy cps) v := by
  induction cps generalizing cx cy s with
  | nil => rfl
  | cons cp cps ih =>
    unfold State.drawTextFrom textPixels
    split
    · exact ih _ _ _
    · rw [ih, State.drawGlyph, State.paint_append]

/-! ## What an operation can do -/

/-- Every operation answers a next state (R253: every command ends; no error is a stop, R215), and that state is the old
one with pixels painted, the framebuffer filled, a result appended, an error recorded, the setup sequence sent, a commit
sent (only with INIT set), or one frame sent. -/
theorem exec_cases (i : Instr) (s : State) :
    ∃ t, exec i s = .next t ∧
      ((∃ ps v, t = s.paint ps v) ∨
        (∃ v, i = .fill v ∧ t = s.setFb fun _ => if v then 0xFF else 0x00) ∨
        (∃ w, t = s.pushResult w ∧ (i = .readStatus ∨ ∃ x y, i = .getPixel x y)) ∨
        (∃ e, t = s.raise e) ∨
        (i = .setup ∧
          t = ((s.emit (setupEvents Config.commandBytes Config.clearWait)).setFlag .init).clearFlag .synced) ∨
        (∃ ws, (i = .commitDiff ∨ i = .commitFull) ∧ s.flag .init = true ∧ t = s.commit Config.commandBytes ws) ∨
        ∃ rs v, (i = .frameCmd v ∨ i = .frameData v) ∧ t = s.emit (frameEvents rs v)) := by
  cases i with
  | setPixel x y v => exact ⟨_, exec_setPixel s x y v, .inl ⟨[(x, y)], v, rfl⟩⟩
  | getPixel x y => exact ⟨_, exec_getPixel s x y, .inr (.inr (.inl ⟨_, rfl, .inr ⟨x, y, rfl⟩⟩))⟩
  | fill v => exact ⟨_, exec_fill s v, .inr (.inl ⟨v, rfl, rfl⟩)⟩
  | drawRect x0 y0 x1 y1 v => exact ⟨_, exec_drawRect s x0 y0 x1 y1 v, .inl ⟨_, v, rfl⟩⟩
  | drawGlyph x y cp v => exact ⟨_, exec_drawGlyph s x y cp v, .inl ⟨_, v, rfl⟩⟩
  | drawText x y cps v => exact ⟨_, exec_drawText s x y cps v, .inl ⟨_, v, drawTextFrom_eq_paint ..⟩⟩
  | setup => exact ⟨_, exec_setup s, .inr (.inr (.inr (.inr (.inl ⟨rfl, rfl⟩))))⟩
  | commitDiff =>
    cases h : s.flag .init
    · exact ⟨_, exec_commitDiff_refused s h, .inr (.inr (.inr (.inl ⟨_, rfl⟩)))⟩
    · exact ⟨_, exec_commitDiff s h, .inr (.inr (.inr (.inr (.inr (.inl ⟨_, .inl rfl, rfl, rfl⟩)))))⟩
  | commitFull =>
    cases h : s.flag .init
    · exact ⟨_, exec_commitFull_refused s h, .inr (.inr (.inr (.inl ⟨_, rfl⟩)))⟩
    · exact ⟨_, exec_commitFull s h, .inr (.inr (.inr (.inr (.inr (.inl ⟨_, .inr rfl, rfl, rfl⟩)))))⟩
  | readStatus => exact ⟨_, exec_readStatus s, .inr (.inr (.inl ⟨_, rfl, .inl rfl⟩))⟩
  | frameCmd v => exact ⟨_, exec_frameCmd s v, .inr (.inr (.inr (.inr (.inr (.inr ⟨_, v, .inl rfl, rfl⟩)))))⟩
  | frameData v => exact ⟨_, exec_frameData s v, .inr (.inr (.inr (.inr (.inr (.inr ⟨_, v, .inr rfl, rfl⟩)))))⟩
  | reserved0 r => exact ⟨_, exec_reserved0 s r, .inr (.inr (.inr (.inl ⟨_, rfl⟩)))⟩
  | reserved7 r => exact ⟨_, exec_reserved7 s r, .inr (.inr (.inr (.inl ⟨_, rfl⟩)))⟩
  | reservedC r => exact ⟨_, exec_reservedC s r, .inr (.inr (.inr (.inl ⟨_, rfl⟩)))⟩

end Sys2Proof.Machine
end

