-- ==== Sys2Proof/Laws/Step.lean ====
section
/-! SUPPORT. One step: what the decoder answers for the words at hand, and one inversion of `step`. -/

namespace Sys2Proof

theorem decodeStream_cons (h : Word) (ws : List Word) :
    decodeStream (h :: ws) =
      if ws.length < operandWords h then .waiting
      else
        match decodeCommand h (ws.take (operandWords h)) with
        | .ok i => .command i (ws.drop (operandWords h))
        | .error e => .illegal e (ws.drop (operandWords h)) := rfl

/-- A command's words at the front of a stream are decoded and the rest is left (R76). -/
theorem decodeStream_append (h : Word) (ops rest : List Word) (hl : ops.length = operandWords h) :
    decodeStream (h :: (ops ++ rest)) =
      match decodeCommand h ops with
      | .ok i => .command i rest
      | .error e => .illegal e rest := by
  rw [decodeStream_cons, if_neg (by rw [List.length_append]; omega), ← hl, List.take_left, List.drop_left]

/-- The decoder waits exactly when there is no header yet or an operand word is still owed (R29). -/
theorem decodeStream_waiting_iff (ws : List Word) :
    decodeStream ws = .waiting ↔ ws = [] ∨ ∃ h ops, ws = h :: ops ∧ ops.length < operandWords h := by
  cases ws with
  | nil => simp [decodeStream]
  | cons h ops =>
    rw [decodeStream_cons]
    split
    · simpa
    · rename_i hl
      cases decodeCommand h (ops.take (operandWords h)) <;> simpa using hl

namespace Machine

/-- One step, inverted: a frame put before the serializer, nothing to run yet, an illegal command, or a command. -/
theorem step_cases {s t : State} (h : step s = .next t) :
    (∃ f fs i, s.frames = f :: fs ∧ decodeFrame f = some i ∧ exec i { s with frames := fs } = .next t) ∨
    (s.frames = [] ∧ s.fetch = .waiting ∧ t = s.absorb) ∨
    (∃ e rest, s.frames = [] ∧ s.fetch = .illegal e rest ∧ t = (s.afterCommand rest).raise .illegal) ∨
    (∃ i rest, s.frames = [] ∧ s.fetch = .command i rest ∧ exec i (s.afterCommand rest) = .next t) := by
  unfold step at h
  split at h
  · rename_i f fs hf
    split at h
    · exact .inl ⟨f, fs, _, hf, ‹_›, h⟩
    · cases h
  · rename_i hf
    split at h
    · injection h with h; exact .inr (.inl ⟨hf, ‹_›, h.symm⟩)
    · injection h with h; exact .inr (.inr (.inl ⟨_, _, hf, ‹_›, h.symm⟩))
    · exact .inr (.inr (.inr ⟨_, _, hf, ‹_›, h⟩))

/-- A frame read back is one of the two kinds. -/
theorem decodeFrame_cases {f : FrameBits} {i : Instr} (h : decodeFrame f = some i) :
    ∃ v, i = .frameCmd v ∨ i = .frameData v := by
  unfold decodeFrame at h
  split at h
  · injection h with h; exact ⟨_, .inl h.symm⟩
  · split at h
    · injection h with h; exact ⟨_, .inr h.symm⟩
    · cases h

end Machine

end Sys2Proof
end

