-- ==== Sys2Proof/Laws/Decoding.lean ====
section
/-! SUPPORT. The decoder, inverted: what a header and its operands are when they decode, the fields of a header told from
the word as a number, and a header rebuilt from its fields. -/

namespace Sys2Proof

/-! ## The fields of a header as numbers -/

theorem opField_toNat (h : Word) : (opField h).toNat = h.toNat / 2 ^ 28 := by
  have := h.isLt
  simp [opField, BitVec.extractLsb', Nat.shiftRight_eq_div_pow]; omega

theorem lenField_toNat (h : Word) : (lenField h).toNat = h.toNat % 2 ^ 16 := by
  simp [lenField, BitVec.extractLsb']

theorem rsvField_toNat (h : Word) : (rsvField h).toNat = h.toNat / 2 ^ 16 % 2 ^ 11 := by
  simp [rsvField, BitVec.extractLsb', Nat.shiftRight_eq_div_pow]

theorem vField_eq_decide (h : Word) : vField h = decide (h.toNat / 2 ^ 27 % 2 = 1) := by
  simp only [vField, BitVec.getLsbD, Nat.testBit_eq_decide_div_mod_eq]

/-! ## A header and its fields -/

/-- A header with `RSV` zero is the header of its other three fields. -/
theorem header_decoded (h : Word) (hr : rsvField h = 0) : header (opField h) (vField h) (lenField h) = h := by
  apply BitVec.eq_of_getLsbD_eq
  intro i hi
  have hr' : ∀ j < 11, h.getLsbD (16 + j) = false := by
    intro j hj
    have := congrArg (fun b => b.getLsbD j) hr
    simpa [rsvField, hj] using this
  have ho : ∀ v : Bool, ∀ i < 32, ((BitVec.ofBool v).setWidth 32 <<< 27).getLsbD i = (v && decide (i = 27)) := by
    intro v; cases v <;> decide
  unfold header
  rw [BitVec.getLsbD_or, BitVec.getLsbD_or, ho _ _ hi]
  by_cases h1 : i < 16
  · simp [opField, vField, lenField, h1, hi, show i < 28 by omega, show i ≠ 27 by omega]
  · by_cases h2 : i < 27
    · have := hr' (i - 16) (by omega)
      rw [show 16 + (i - 16) = i by omega] at this
      rw [this]
      simp [opField, lenField, h1, show i < 28 by omega, show i ≠ 27 by omega]
    · by_cases h3 : i = 27
      · subst h3; simp [opField, vField, lenField]
      · simp [opField, lenField, h1, hi, show ¬ i < 28 by omega, h3, show i - 28 < 4 by omega,
          show 28 + (i - 28) = i by omega]

/-- A reserved header is rebuilt from its `OP` and its other bits. -/
theorem reservedHeader_decoded (h : Word) : reservedHeader (opField h) (h.extractLsb' 0 28) = h := by
  apply BitVec.eq_of_getLsbD_eq
  intro i hi
  by_cases h1 : i < 28
  · simp [reservedHeader, opField, h1, hi]
  · simp [reservedHeader, opField, h1, hi, show i - 28 < 4 by omega, show 28 + (i - 28) = i by omega]

theorem reservedHeaderC_decoded (h : Word) (ho : 12 ≤ opField h) : reservedHeaderC (h.extractLsb' 0 30) = h := by
  have h3 : (opField h).getLsbD 3 = true ∧ (opField h).getLsbD 2 = true := by
    revert ho; generalize opField h = o; revert o; decide
  have e3 : h.getLsbD 31 = true := by simpa [opField] using h3.1
  have e2 : h.getLsbD 30 = true := by simpa [opField] using h3.2
  apply BitVec.eq_of_getLsbD_eq
  intro i hi
  have hk : ∀ i < 32, (0xC0000000#32).getLsbD i = decide (30 ≤ i) := by decide
  unfold reservedHeaderC
  rw [BitVec.getLsbD_or, hk i hi]
  by_cases h1 : i < 30
  · simp [h1, hi]
  · have : i = 30 ∨ i = 31 := by omega
    rcases this with rfl | rfl <;> simp_all

/-! ## Legal headers -/

/-- A header of fields its operation uses is legal (R78). -/
theorem headerError_header (op : BitVec 4) (v : Bool) (len : BitVec 16) (hv : v = false ∨ (opOf op).usesV = true)
    (hlen : len = 0 ∨ (opOf op).usesLen = true) : headerError (header op v len) = none := by
  unfold headerError
  simp only [rsvField_header, vField_header, lenField_header, opField_header]
  rcases hv with rfl | hv <;> rcases hlen with rfl | hlen <;> simp [*]

/-- What a legal header is (R78). -/
theorem headerError_eq_none {h : Word} (he : headerError h = none) :
    rsvField h = 0 ∧ (vField h = true → (opOf (opField h)).usesV = true) ∧
      (lenField h ≠ 0 → (opOf (opField h)).usesLen = true) := by
  unfold headerError at he
  split at he
  · cases he
  · split at he
    · cases he
    · split at he
      · cases he
      · simp_all

theorem ifLegal_eq_ok {h : Word} {r : Except DecodeError Instr} {i : Instr} (e : ifLegal h r = .ok i) :
    headerError h = none ∧ r = .ok i := by
  unfold ifLegal at e; split at e
  · cases e
  · exact ⟨‹_›, e⟩

theorem noOperand_eq_ok {ops : List Word} {i j : Instr} (e : noOperand ops i = .ok j) : ops = [] ∧ i = j := by
  unfold noOperand at e; split at e
  · injection e with e; exact ⟨rfl, e⟩
  · cases e

theorem oneOperand_eq_ok {ops : List Word} {f : Word → Instr} {j : Instr} (e : oneOperand ops f = .ok j) :
    ∃ p, ops = [p] ∧ f p = j := by
  unfold oneOperand at e; split at e
  · injection e with e; exact ⟨_, rfl, e⟩
  · cases e

theorem twoOperands_eq_ok {ops : List Word} {f : Word → Word → Instr} {j : Instr} (e : twoOperands ops f = .ok j) :
    ∃ p q, ops = [p, q] ∧ f p q = j := by
  unfold twoOperands at e; split at e
  · injection e with e; exact ⟨_, _, rfl, e⟩
  · cases e

theorem textOperands_eq_ok {ops : List Word} {n : Nat} {f : Word → List Word → Instr} {j : Instr}
    (e : textOperands ops n f = .ok j) : ∃ p cs, ops = p :: cs ∧ cs.length = n ∧ f p cs = j := by
  unfold textOperands at e; split at e
  · split at e
    · injection e with e; exact ⟨_, _, rfl, ‹_›, e⟩
    · cases e
  · cases e

/-! ## Whole commands -/

theorem decodeCommand_header {o : Op} (op : BitVec 4) (v : Bool) (len : BitVec 16) (ops : List Word)
    (ho : opOf op = o) : decodeCommand (header op v len) ops = decodeOp o (header op v len) ops := by
  subst ho; rw [decodeCommand, opField_header]

/-- A header with all its operand words and no more decodes whole. -/
theorem decode_of_decodeCommand {h : Word} {ops : List Word} {i : Instr} (hl : ops.length = operandWords h)
    (hd : decodeCommand h ops = .ok i) : decode (.command (h :: ops)) = .ok i := by
  have := decodeStream_append h ops [] hl
  rw [List.append_nil, hd] at this
  simp [decode, this]

/-- A whole command is a header with all its operand words and no more. -/
theorem decode_command_eq_ok {ws : List Word} {i : Instr} (hd : decode (.command ws) = .ok i) :
    ∃ h ops, ws = h :: ops ∧ ops.length = operandWords h ∧ decodeCommand h ops = .ok i := by
  unfold decode at hd
  simp only at hd
  cases ws with
  | nil => cases hd
  | cons h ws =>
    rw [decodeStream_cons] at hd
    by_cases hl : ws.length < operandWords h
    · rw [if_pos hl] at hd; cases hd
    · rw [if_neg hl] at hd
      cases hc : decodeCommand h (ws.take (operandWords h)) with
      | error e => rw [hc] at hd; cases hd
      | ok j =>
        rw [hc] at hd
        simp only at hd
        split at hd
        · rename_i j' e'
          injection e' with e1 e2
          injection hd with hd
          subst e1 hd
          have hle : ws.length ≤ operandWords h := List.drop_eq_nil_iff.1 e2
          exact ⟨h, ws, rfl, by omega, by rw [List.take_of_length_le hle] at hc; exact hc⟩
        · cases hd
        · cases hd
        · cases hd

namespace Machine

/-- A step at a header with all its operand words there. -/
theorem step_of_stream {s : State} {h : Word} {ops rest : List Word} (hf : s.frames = [])
    (hs : s.decoder.words ++ s.port = h :: (ops ++ rest)) (hl : ops.length = operandWords h) :
    step s =
      match decodeCommand h ops with
      | .ok i => exec i (s.afterCommand rest)
      | .error _ => .next ((s.afterCommand rest).raise .illegal) := by
  have := decodeStream_append h ops rest hl
  simp only [step, hf, State.fetch, hs, this]
  cases decodeCommand h ops <;> rfl

theorem DecoderPos.eq_boundary {d : DecoderPos} (h : d.words = []) : d = .boundary := by
  cases d
  · rfl
  · cases h

/-- Nothing to absorb changes nothing. -/
theorem State.absorb_of_nil {s : State} (e : s.decoder.words ++ s.port = []) : s.absorb = s := by
  unfold State.absorb; rw [e]
  obtain ⟨h1, h2⟩ := List.append_eq_nil_iff.1 e
  have := DecoderPos.eq_boundary h1
  cases s; simp_all

theorem State.absorb_of_cons {s : State} {h : Word} {ops : List Word} (e : s.decoder.words ++ s.port = h :: ops) :
    s.absorb = { s with decoder := .inside h ops, port := [] } := by
  unfold State.absorb; rw [e]

/-- A sequence that starts with an operation goes on from the state it leaves. -/
theorem execAll_cons_next {i : Instr} {is : List Instr} {s t : State} (h : exec i s = .next t) :
    execAll (i :: is) s = execAll is t := by
  rw [execAll, h]

end Machine

end Sys2Proof
end

