-- ==== Sys2Proof/Laws/Drawing.lean ====
section
/-! SUPPORT. The pixels of the drawing commands: which ones a rectangle, a glyph and a text write. -/

namespace Sys2Proof.Machine

/-- A rectangle writes its in-bounds pixels (R105). -/
theorem mem_rectPixels {x0 y0 x1 y1 px py : Int} :
    (px, py) ∈ rectPixels x0 y0 x1 y1 ↔
      InBounds px py ∧ min x0 x1 ≤ px ∧ px ≤ max x0 x1 ∧ min y0 y1 ≤ py ∧ py ≤ max y0 y1 := by
  simp only [rectPixels, List.mem_flatMap, List.mem_map, mem_intSpan, Prod.mk.injEq, InBounds, Config.W, Config.H]
  constructor
  · rintro ⟨y, hy, x, hx, rfl, rfl⟩; omega
  · intro h; exact ⟨py, by omega, px, by omega, rfl, rfl⟩

/-- A glyph's set bits inside its width are its ink (R130, R131, R132). -/
theorem glyphBit_iff (a : Config.Atlas) (cp r c : Nat) :
    (c < glyphWidth cp ∧ glyphBit a cp r c = true) ↔ InkAt a cp r c := by
  unfold InkAt glyphWidth glyphBit glyphRow cellAddr
  simp only [Config.narrowLimit, Config.narrowW, Config.wideW, Config.glyphStride, Config.glyphRowBytes]
  by_cases hc : cp < 128
  · rw [if_pos hc, if_pos hc]
    by_cases hn : cp < a.nGlyphs
    · rw [if_pos hn]
      simp only [hn, true_and, show ¬ 128 ≤ cp by omega, false_and, or_false]
    · rw [if_neg hn]; simp [hn]
  · rw [if_neg hc, if_neg hc]
    by_cases hn : cp < a.nGlyphs
    · rw [if_pos hn]
      simp only [hn, true_and, show 128 ≤ cp by omega, BitVec.getLsbD_append]
      by_cases h8 : c < 8
      · simp only [show ¬ (15 - c < 8) by omega, if_false, show 15 - c - 8 = 7 - c by omega, h8, true_and,
          show c < 16 by omega, show ¬ 8 ≤ c by omega, false_and, or_false]
      · by_cases h16 : c < 16
        · simp only [show (15 - c < 8) by omega, if_true, h8, false_and, h16, true_and, show 8 ≤ c by omega, false_or]
        · simp [h8, h16]
    · rw [if_neg hn]; simp [hn]

/-- A glyph writes its ink (R133). -/
theorem mem_glyphPixels {a : Config.Atlas} {x y : Int} {cp : Nat} {px py : Int} :
    (px, py) ∈ glyphPixels a x y cp ↔ GlyphPixel a x y cp px py := by
  simp only [glyphPixels, GlyphPixel, List.mem_flatMap, List.mem_map, List.mem_filter, List.mem_range,
    Config.glyphRows, Prod.mk.injEq, glyphBit_iff]
  constructor
  · rintro ⟨r, hr, c, hc, rfl, rfl⟩; exact ⟨r, c, hr, hc, rfl, rfl⟩
  · rintro ⟨r, c, hr, hc, rfl, rfl⟩; exact ⟨r, hr, c, hc, rfl, rfl⟩

@[simp] theorem textCursor_nil (x y : Int) : textCursor x y [] = (x, y) := by simp [textCursor]

/-- One codepoint moves the cursor as R134 says. -/
theorem textCursor_concat (x y : Int) (pre : List Nat) (cp : Nat) :
    textCursor x y (pre ++ [cp]) =
      if cp = 0x0A then (x, (textCursor x y pre).2 + 16)
      else ((textCursor x y pre).1 + glyphWidth cp, (textCursor x y pre).2) := by
  simp only [textCursor, List.reverse_append, List.reverse_cons, List.reverse_nil, List.nil_append,
    List.singleton_append, List.count_append]
  split
  · subst cp; simp; omega
  · rename_i h
    simp [h, glyphWidth]
    split <;> omega

theorem textPixels_cons (a : Config.Atlas) (x cx cy : Int) (cp : Nat) (cps : List Nat) :
    textPixels a x cx cy (cp :: cps) =
      if cp = Config.newline then textPixels a x x (cy + Config.lineAdvance) cps
      else glyphPixels a cx cy cp ++ textPixels a x (cx + glyphWidth cp) cy cps := rfl

/-- What is left of a text after `pre` writes the ink of its glyphs at their cursors. -/
theorem mem_textPixels_from {a : Config.Atlas} {x y px py : Int} (pre cps : List Nat) :
    (px, py) ∈ textPixels a x (textCursor x y pre).1 (textCursor x y pre).2 cps ↔
      ∃ p cp post, cps = p ++ cp :: post ∧ cp ≠ 0x0A ∧
        GlyphPixel a (textCursor x y (pre ++ p)).1 (textCursor x y (pre ++ p)).2 cp px py := by
  induction cps generalizing pre with
  | nil => simp [textPixels]
  | cons c cps ih =>
    have h := ih (pre ++ [c])
    rw [textCursor_concat] at h
    have first : (∃ p cp post, c :: cps = p ++ cp :: post ∧ cp ≠ 0x0A ∧
          GlyphPixel a (textCursor x y (pre ++ p)).1 (textCursor x y (pre ++ p)).2 cp px py) ↔
        (c ≠ 0x0A ∧ GlyphPixel a (textCursor x y pre).1 (textCursor x y pre).2 c px py) ∨
          ∃ p cp post, cps = p ++ cp :: post ∧ cp ≠ 0x0A ∧
            GlyphPixel a (textCursor x y (pre ++ [c] ++ p)).1 (textCursor x y (pre ++ [c] ++ p)).2 cp px py := by
      constructor
      · rintro ⟨p, cp, post, e, hn, hg⟩
        cases p with
        | nil =>
          rw [List.nil_append] at e
          injection e with e1 e2
          subst e1
          rw [List.append_nil] at hg
          exact .inl ⟨hn, hg⟩
        | cons q p =>
          rw [List.cons_append] at e
          injection e with e1 e2
          subst e1
          exact .inr ⟨p, cp, post, e2, hn, by simpa using hg⟩
      · rintro (⟨hn, hg⟩ | ⟨p, cp, post, e, hn, hg⟩)
        · exact ⟨[], c, cps, rfl, hn, by simpa using hg⟩
        · exact ⟨c :: p, cp, post, by rw [e]; rfl, hn, by simpa using hg⟩
    rw [first, ← h, textPixels_cons]
    split
    · rename_i hc
      simp only [Config.newline] at hc
      simp [hc]
    · rename_i hc
      simp only [Config.newline] at hc
      rw [List.mem_append, mem_glyphPixels]
      simp [hc]

/-- A text writes the ink of its glyphs (R134, R137). -/
theorem mem_textPixels {a : Config.Atlas} {x y px py : Int} {cps : List Nat} :
    (px, py) ∈ textPixels a x x y cps ↔ TextPixel a x y cps px py := by
  have := mem_textPixels_from (a := a) (x := x) (y := y) (px := px) (py := py) [] cps
  rwa [textCursor_nil] at this

/-- What is left of a text after `pre` writes its glyphs' pixels, each at the cursor its position has. -/
theorem textPixels_from_eq_flatMap (a : Config.Atlas) (x y : Int) (pre post : List Nat) :
    textPixels a x (textCursor x y pre).1 (textCursor x y pre).2 post =
      (List.range' pre.length post.length).flatMap fun k =>
        if (pre ++ post)[k]? = some 0x0A then []
        else glyphPixels a (textCursor x y ((pre ++ post).take k)).1 (textCursor x y ((pre ++ post).take k)).2
          ((pre ++ post).getD k 0) := by
  induction post generalizing pre with
  | nil => rfl
  | cons c post ih =>
    have ih' := ih (pre ++ [c])
    rw [List.length_append, List.length_singleton, textCursor_concat, List.append_assoc, List.singleton_append] at ih'
    rw [List.length_cons, List.range'_succ, List.flatMap_cons, ← ih', textPixels_cons]
    by_cases hc : c = 0x0A <;> simp [hc]

/-- A text writes its glyphs' pixels in order (R134, R137). -/
theorem textPixels_eq_flatMap (a : Config.Atlas) (x y : Int) (cps : List Nat) :
    textPixels a x x y cps =
      (List.range cps.length).flatMap fun k =>
        if cps[k]? = some 0x0A then []
        else glyphPixels a (textCursor x y (cps.take k)).1 (textCursor x y (cps.take k)).2 (cps.getD k 0) := by
  have := textPixels_from_eq_flatMap a x y [] cps
  rwa [textCursor_nil, List.nil_append, List.length_nil, ← List.range_eq_range'] at this

end Sys2Proof.Machine
end

