-- ==== Sys2Proof/Laws/PerInstr.lean ====
section
/-! SUPPORT. The family `Length`: the words of an encoded command are as many as its header says (spec/30_encoding.md
R77), one lemma per operation; a frame is not a command. -/

namespace Sys2Proof.Laws.Length

/-- The encoding of a well-formed operation is one frame, or a header followed by as many operand words as the header
tells (R71, R77). -/
def Statement (i : Instr) : Prop :=
  i.wellFormed = true →
    match encode i with
    | .frame _ => True
    | .command ws => ∃ h ops, ws = h :: ops ∧ ws.length = commandLength h

/-- A header followed by as many words as its operation takes meets the statement. -/
theorem of_header (op : BitVec 4) (v : Bool) (len : BitVec 16) (ops : List Word)
    (h : ops.length = (opOf op).operands len.toNat) :
    ∃ hd tl, header op v len :: ops = hd :: tl ∧ (header op v len :: ops).length = commandLength hd :=
  ⟨_, _, rfl, by rw [List.length_cons, h, commandLength, operandWords_header, Nat.add_comm]⟩

section
variable (x y x0 y0 x1 y1 : Int) (v : Bool)
theorem setPixel : Statement (.setPixel x y v) := fun _ => of_header 0x1 v 0 _ rfl
theorem getPixel : Statement (.getPixel x y) := fun _ => of_header 0x2 false 0 _ rfl
theorem fill : Statement (.fill v) := fun _ => of_header 0x3 v 0 _ rfl
theorem drawRect : Statement (.drawRect x0 y0 x1 y1 v) := fun _ => of_header 0x4 v 0 _ rfl
theorem drawGlyph (cp : Nat) : Statement (.drawGlyph x y cp v) := fun _ => of_header 0x5 v 0 _ rfl
theorem drawText (cps : List Nat) : Statement (.drawText x y cps v) := by
  intro h
  have hl : cps.length ≤ 65535 := by
    simp only [Instr.wellFormed, Bool.and_eq_true, decide_eq_true_eq] at h
    exact h.1.2
  refine of_header 0x6 v _ _ ?_
  rw [List.length_cons, List.length_map, BitVec.toNat_ofNat, Nat.mod_eq_of_lt (by omega), Nat.add_comm]
  rfl
end

theorem setup : Statement .setup := fun _ => of_header 0x8 false 0 _ rfl
theorem commitDiff : Statement .commitDiff := fun _ => of_header 0x9 false 0 _ rfl
theorem commitFull : Statement .commitFull := fun _ => of_header 0xA false 0 _ rfl
theorem readStatus : Statement .readStatus := fun _ => of_header 0xB false 0 _ rfl
theorem frameCmd (v : Byte) : Statement (.frameCmd v) := fun _ => trivial
theorem frameData (v : Byte) : Statement (.frameData v) := fun _ => trivial
theorem reserved0 (r : BitVec 28) : Statement (.reserved0 r) := fun _ =>
  ⟨_, _, rfl, congrArg (1 + ·) (operandWords_eq (op := .reserved0) (congrArg opOf (opField_reservedHeader 0x0 r))).symm⟩
theorem reserved7 (r : BitVec 28) : Statement (.reserved7 r) := fun _ =>
  ⟨_, _, rfl, congrArg (1 + ·) (operandWords_eq (op := .reserved7) (congrArg opOf (opField_reservedHeader 0x7 r))).symm⟩
theorem reservedC (r : BitVec 30) : Statement (.reservedC r) := fun _ =>
  ⟨_, _, rfl, congrArg (1 + ·) (operandWords_eq (op := .reservedC) (opOf_reservedHeaderC r)).symm⟩

end Sys2Proof.Laws.Length
end

