-- ==== Sys2Proof/Tests/Slice0.lean ====
section
/-! SUPPORT. Tests of one step each, their expected values from spec/95_test_vectors.md (the vector named in each
comment), ill-formed operations that the check refuses, words written out from the encodings of spec/30_encoding.md, and
a witness for the hypotheses of every statement that has any. -/

-- One theorem after another: side by side, so many small ones ask for more threads than a sandbox may have.
set_option Elab.async false

namespace Sys2Proof.Tests

open Sys2Proof Sys2Proof.Machine

/-! ## Helpers -/

/-- The state an outcome answers. -/
def after : Host.Outcome State Fault Refusal → State
  | .next s => s
  | .fault _ => State.reset
  | .refused _ => State.reset

/-- A block at reset but for the first `n` framebuffer bytes, each `b`. -/
def filled (n : Nat) (b : Byte) : State := { State.reset with fb := (List.range n).map fun i => (i, b) }

/-- A block with both buffers zero and the given STATUS. -/
def blank (status : Word) : State :=
  { State.reset with fb := Memory.ofBytes fun _ => 0, cb := Memory.ofBytes fun _ => 0, status := status }

/-- A frame of the vectors, written as a number, as wire events. -/
def wireOf (f : Nat) : List WireEvent := (List.range 24).map fun k => .bit (f / 2 ^ (23 - k) % 2 == 1)

/-- The recommended command bytes of R85. -/
def testBytes : Config.CommandBytes := ⟨0x30, 0x01, 0x34, 0x36, 0x80⟩

/-- Byte 0 of the rows of cell 0x41 of the synthetic atlas. -/
def letterRows : List Byte := [0x00, 0x18, 0x24, 0x42, 0x42, 0x7E, 0x42, 0x42, 0x42]

/-- The synthetic test atlas of 95_test_vectors.md. -/
def testAtlas : Config.Atlas where
  nGlyphs := 0x10000
  byte n :=
    if n / 32 = 0x41 then if n % 2 = 0 then letterRows.getD (n % 32 / 2) 0x00 else 0xFF
    else if n / 32 = 0x4E00 then if n % 2 = 0 then 0x80 else 0x01
    else 0x00

/-! ## WellFormed: each check refuses an ill-formed term -/

theorem test_illFormed_setPixel_x : (Instr.setPixel 32768 0 true).wellFormed = false := by decide
theorem test_illFormed_setPixel_y : (Instr.setPixel 0 (-32769) true).wellFormed = false := by decide
theorem test_illFormed_getPixel_x : (Instr.getPixel (-32769) 0).wellFormed = false := by decide
theorem test_illFormed_getPixel_y : (Instr.getPixel 0 32768).wellFormed = false := by decide
theorem test_illFormed_drawRect_x0 : (Instr.drawRect 32768 0 0 0 true).wellFormed = false := by decide
theorem test_illFormed_drawRect_y0 : (Instr.drawRect 0 32768 0 0 true).wellFormed = false := by decide
theorem test_illFormed_drawRect_x1 : (Instr.drawRect 0 0 (-32769) 0 true).wellFormed = false := by decide
theorem test_illFormed_drawRect_y1 : (Instr.drawRect 0 0 0 (-32769) true).wellFormed = false := by decide
theorem test_illFormed_drawGlyph_x : (Instr.drawGlyph 32768 0 0 true).wellFormed = false := by decide
theorem test_illFormed_drawGlyph_y : (Instr.drawGlyph 0 32768 0 true).wellFormed = false := by decide
theorem test_illFormed_drawGlyph_cp : (Instr.drawGlyph 0 0 4294967296 true).wellFormed = false := by decide
theorem test_illFormed_drawText_x : (Instr.drawText 32768 0 [] true).wellFormed = false := by decide
theorem test_illFormed_drawText_y : (Instr.drawText 0 (-32769) [] true).wellFormed = false := by decide
theorem test_illFormed_drawText_cp : (Instr.drawText 0 0 [0x41, 4294967296] true).wellFormed = false := by decide
theorem test_illFormed_drawText_length (cps : List Nat) (h : cps.length = 65536) :
    (Instr.drawText 0 0 cps true).wellFormed = false := by simp [Instr.wellFormed, h]

/-! ## Decoding, from the words of EN1 to EN19 and FR1 to FR8 -/

theorem test_decode_EN1 : decode (.command [0x18000000, 0x003F007F]) = .ok (.setPixel 127 63 true) := by decide
theorem test_decode_EN3 : decode (.command [0x10000000, 0xFFFF0000]) = .ok (.setPixel 0 (-1) false) := by decide
theorem test_decode_EN4 : decode (.command [0x18000000, 0x00008000]) = .ok (.setPixel (-32768) 0 true) := by decide
theorem test_decode_EN5 : decode (.command [0x20000000, 0x00020003]) = .ok (.getPixel 3 2) := by decide
theorem test_decode_EN6 :
    decode (.command [0x38000000]) = .ok (.fill true) ∧ decode (.command [0x30000000]) = .ok (.fill false) := by decide
theorem test_decode_EN7 :
    decode (.command [0x48000000, 0x0005000A, 0x00020003]) = .ok (.drawRect 10 5 3 2 true) := by decide
theorem test_decode_EN8 :
    decode (.command [0x58000000, 0x00000000, 0x00004E00]) = .ok (.drawGlyph 0 0 0x4E00 true) := by decide
theorem test_decode_EN9 :
    decode (.command [0x68000003, 0x0000000A, 0x00000041, 0x0000000A, 0x00000041]) =
      .ok (.drawText 10 0 [0x41, 0x0A, 0x41] true) := by decide
theorem test_decode_EN10 : decode (.command [0x68000000, 0x00000000]) = .ok (.drawText 0 0 [] true) := by decide
theorem test_decode_EN11 :
    decode (.command [0x80000000]) = .ok .setup ∧ decode (.command [0x90000000]) = .ok .commitDiff ∧
    decode (.command [0xA0000000]) = .ok .commitFull ∧ decode (.command [0xB0000000]) = .ok .readStatus := by decide
/-- EN12, EN13. -/
theorem test_decode_reserved :
    decode (.command [0x00000000]) = .ok (.reserved0 0) ∧ decode (.command [0x70000000]) = .ok (.reserved7 0) ∧
    decode (.command [0xC0000000]) = .ok (.reservedC 0) ∧
    decode (.command [0xF0000000]) = .ok (.reservedC 0x30000000) := by decide
/-- EN14 to EN19: the words consumed, and the word after them left. -/
theorem test_decode_illegal :
    decodeStream [0x28000000, 0, 0xB0000000] = .illegal .unusedValueSet [0xB0000000] ∧
    decodeStream [0x38010000, 0xB0000000] = .illegal .reservedFieldSet [0xB0000000] ∧
    decodeStream [0x18000001, 0, 0xB0000000] = .illegal .unusedLengthSet [0xB0000000] ∧
    decodeStream [0x68010002, 0, 0x41, 0x41, 0xB0000000] = .illegal .reservedFieldSet [0xB0000000] ∧
    decodeStream [0x88000000, 0xB0000000] = .illegal .unusedValueSet [0xB0000000] ∧
    decodeStream [0x90000001, 0xB0000000] = .illegal .unusedLengthSet [0xB0000000] := by decide
/-- FR1, FR6, FR7, FR8. -/
theorem test_decode_frames :
    decode (.frame 0xF83000) = .ok (.frameCmd 0x30) ∧ decode (.frame 0xF890F0) = .ok (.frameCmd 0x9F) ∧
    decode (.frame 0xFAA050) = .ok (.frameData 0xA5) ∧ decode (.frame 0xFAF0F0) = .ok (.frameData 0xFF) ∧
    decode (.frame 0xFC3000) = .error .notAFrame := by decide

/-- The encoder writes the same words (EN2, EN7, EN9, FR7). -/
theorem test_encode :
    encode (.setPixel (-1) 0 true) = .command [0x18000000, 0x0000FFFF] ∧
    encode (.drawRect 10 5 3 2 true) = .command [0x48000000, 0x0005000A, 0x00020003] ∧
    encode (.drawText 10 0 [0x41, 0x0A, 0x41] true) =
      .command [0x68000003, 0x0000000A, 0x00000041, 0x0000000A, 0x00000041] ∧
    encode (.frameData 0xA5) = .frame 0xFAA050 := by decide

/-- No word matches two rows of the opcode table. -/
theorem test_opcodeRows_disjoint :
    opcodeRows.Pairwise fun r r' => r.pattern &&& (r.mask &&& r'.mask) ≠ r'.pattern &&& (r.mask &&& r'.mask) := by
  decide

/-- The table's numbering: the first word in the low bits; operand words not given are zero. -/
theorem test_decodeTableWord :
    decodeTableWord 32 0x10000000 = some (.setPixel 0 0 false) ∧
    decodeTableWord 64 0x003F007F18000000 = some (.setPixel 127 63 true) ∧
    decodeTableWord 32 0x60000002 = some (.drawText 0 0 [0, 0] false) ∧
    decodeTableWord 24 0xF83000 = some (.frameCmd 0x30) ∧ decodeTableWord 32 0x28000000 = none := by decide

/-- The string form of DRAW_TEXT, its newline character U+000A (R87). -/
theorem test_expandText : expandText 10 0 "A\nA" true = .drawText 10 0 [0x41, 0x0A, 0x41] true := by decide

/-! ## Framebuffer commands -/

theorem test_setPixel_PX5 : (after (exec (.setPixel 3 2 true) (filled 40 0x00))).fbByte 32 = 0x10 := by decide
theorem test_setPixel_PX7 : (after (exec (.setPixel 3 2 false) (filled 40 0xFF))).fbByte 32 = 0xEF := by decide
/-- PX14: the pixel of a filled screen; PX15: a pixel out of bounds. -/
theorem test_getPixel_PX14 : (after (exec (.getPixel 5 5) (filled 90 0xFF))).results = [1] := by decide +kernel
theorem test_getPixel_PX15 : (after (exec (.getPixel 128 0) (filled 90 0xFF))).results = [0] := by decide
/-- FL1, FL2. -/
theorem test_fill_FL1 : (after (exec (.fill false) State.reset)).fbByte 0 = 0x00 := by decide +kernel
theorem test_fill_FL2 : (after (exec (.fill true) State.reset)).fbByte 1023 = 0xFF := by decide +kernel
theorem test_drawRect_RC1 :
    (List.range 3).map (after (exec (.drawRect 6 0 9 0 true) (filled 3 0x00))).fbByte = [0x03, 0xC0, 0x00] := by
  decide +kernel
theorem test_drawRect_RC3 :
    [0, 16, 32, 48].map (after (exec (.drawRect 5 3 2 1 true) (filled 64 0x00))).fbByte = [0x00, 0x3C, 0x3C, 0x3C] := by
  decide +kernel

/-! ## Glyphs -/

/-- GL2: a narrow glyph off a byte's edge, its byte 1 ignored. -/
theorem test_drawGlyph_GL2 :
    [16, 17, 80, 81, 33].map ((filled 130 0x00).drawGlyph testAtlas 4 0 0x41 true).fbByte =
      [0x01, 0x80, 0x07, 0xE0, 0x40] := by decide +kernel
/-- GL8: a wide glyph. -/
theorem test_drawGlyph_GL8 :
    [0, 1, 2, 240, 242].map ((filled 256 0x00).drawGlyph testAtlas 4 0 0x4E00 true).fbByte =
      [0x08, 0x00, 0x10, 0x08, 0x10] := by decide +kernel
/-- TX1, row 1: narrow, wide, narrow. -/
theorem test_drawText_TX1 :
    [16, 17, 18, 19].map ((filled 64 0x00).drawTextFrom testAtlas 0 true 0 0 [0x41, 0x4E00, 0x41]).fbByte =
      [0x18, 0x80, 0x01, 0x18] := by decide +kernel
/-- TX2: a newline returns to the starting x, 16 rows lower. -/
theorem test_drawText_TX2 :
    [17, 33, 81, 82, 273].map ((filled 300 0x00).drawTextFrom testAtlas 10 true 10 0 [0x41, 0x0A, 0x41]).fbByte =
      [0x06, 0x09, 0x1F, 0x80, 0x06] := by decide +kernel

/-! ## The wire -/

/-- CM1. -/
theorem test_setup_CM1_frames :
    setupEvents testBytes 1600000 =
      wireOf 0xF83000 ++ wireOf 0xF80010 ++ [.wait 1600000] ++ wireOf 0xF83040 ++ wireOf 0xF83060 := by decide +kernel
theorem test_setup_CM1_status : (after (exec .setup State.reset)).status = 0x00000001 := by decide
/-- CM2, CM5: word 0 and word 511, each with one pixel set. -/
theorem test_commitDiff_CM2_word :
    sendWord testBytes { State.reset with fb := [(0, 0x80), (1, 0x00)] } 0 =
      wireOf 0xF88000 ++ wireOf 0xF88000 ++ wireOf 0xFA8000 ++ wireOf 0xFA0000 := by decide +kernel
theorem test_commitDiff_CM5_word :
    sendWord testBytes { State.reset with fb := [(1022, 0x00), (1023, 0x01)] } 511 =
      wireOf 0xF890F0 ++ wireOf 0xF880F0 ++ wireOf 0xFA0000 ++ wireOf 0xFA0010 := by decide +kernel
/-- CM4, CM9: word 256 in bank 1; the words in order. -/
theorem test_commitFull_CM4_word :
    sendWord testBytes { State.reset with fb := [(512, 0x80), (513, 0x00)] } 256 =
      wireOf 0xF88000 ++ wireOf 0xF88080 ++ wireOf 0xFA8000 ++ wireOf 0xFA0000 := by decide +kernel
theorem test_commitFull_CM9_status : (after (exec .commitFull (blank 1))).status = 0x00000003 := by decide +kernel
/-- FR1, FR7. -/
theorem test_frameCmd_FR1 : (after (exec (.frameCmd 0x30) State.reset)).wire = wireOf 0xF83000 := by decide +kernel
theorem test_frameData_FR7 : (after (exec (.frameData 0xA5) State.reset)).wire = wireOf 0xFAA050 := by decide +kernel
/-- The display image after CM2's word: `DI(0, 0) = 0x8000`. -/
theorem test_displayImage_CM2 :
    displayImage testBytes (sendWord testBytes { State.reset with fb := [(0, 0x80), (1, 0x00)] } 0) 0 0 =
      some 0x8000 := by decide +kernel

/-! ## STATUS and errors -/

theorem test_readStatus : (after (exec .readStatus { State.reset with status := 0x0C })).results = [0x0C] := by decide
/-- CM16: a commit before SETUP. -/
theorem test_commit_CM16 :
    (after (exec .commitDiff State.reset)).status = 8 ∧ (after (exec .commitFull State.reset)).status = 8 := by decide
/-- ST2, ST3, ST4, ST9: the words of an illegal command, on the port. -/
theorem test_step_ST2 : (after (step (State.reset.hostSends [0x00000000]))).status = 4 := by decide
theorem test_step_ST3 : (after (step (State.reset.hostSends [0x90000001]))).status = 4 := by decide
theorem test_step_ST4 :
    let t := after (step (State.reset.hostSends [0x28000000, 0x00000000, 0xB0000000]))
    t.status = 4 ∧ t.results = [] ∧ t.port = [0xB0000000] := by decide
theorem test_step_ST9 :
    let t := after (step (State.reset.hostSends [0x88000000]))
    t.status = 4 ∧ t.wire = [] := by decide
/-- The opcode table's reserved rows (R78). -/
theorem test_reserved :
    (after (exec (.reserved0 5) State.reset)).status = 4 ∧ (after (exec (.reserved7 5) State.reset)).status = 4 ∧
    (after (exec (.reservedC 5) State.reset)).status = 4 := by decide

/-- A row's word, placed where the next step takes it, is the instruction that step runs. -/
theorem test_withFetchWord :
    (after (step (State.reset.withFetchWord 32 0x38000000))).fbByte 7 = 0xFF ∧
    (after (step (State.reset.withFetchWord 24 0xFAA050))).wire = wireOf 0xFAA050 ∧
    (after (step (State.reset.withFetchWord 32 0xC0000000))).status = 4 := by decide +kernel

/-! ## Witnesses: the hypotheses of each statement, met together -/

theorem witness_DecodeOfEncodeIsTheInstruction :
    (Instr.setPixel (-32768) 32767 true).wellFormed = true ∧ (Instr.getPixel 32767 (-32768)).wellFormed = true ∧
    (Instr.fill true).wellFormed = true ∧ (Instr.drawRect (-32768) 32767 32767 (-32768) false).wellFormed = true ∧
    (Instr.drawGlyph 32767 (-32768) 4294967295 true).wellFormed = true ∧
    (Instr.drawText (-32768) 32767 [0, 4294967295] true).wellFormed = true ∧ Instr.setup.wellFormed = true ∧
    (Instr.frameData 0xFF).wellFormed = true ∧ (Instr.reservedC 0x3FFFFFFF).wellFormed = true := by decide

theorem witness_EncodeOfDecodeIsTheEncoding :
    decode (.command [0x18000000, 0xFFFF8000]) = .ok (.setPixel (-32768) (-1) true) ∧
    decode (.frame 0xFAF0F0) = .ok (.frameData 0xFF) := by decide

theorem witness_CommandLengthByOperation :
    (1 : Nat) = (0x18000000#32).toNat / 2 ^ 28 ∧ (65535 : Nat) = (0x6800FFFF#32).toNat % 2 ^ 16 := by decide

theorem witness_AcceptedHeadersAreTheOpcodeTable :
    ∀ r ∈ opcodeRows, r.pattern &&& r.mask = r.pattern := by decide

theorem witness_StringTextIsItsCodepoints : coordOk (-32768) ∧ coordOk 32767 ∧ "A\nA".length ≤ 65535 := by decide

/-- A string of any length there is, the first too long one among them. -/
theorem witness_StringTextIsItsCodepoints_tooLong : coordOk 0 ∧ ∃ s : String, 65535 < s.length :=
  ⟨by decide, String.ofList (List.replicate 65536 'A'), by
    rw [String.length_ofList, List.length_replicate]; decide⟩

/-- A header whose one word is on the port, at a command boundary. -/
def oneWord (h : Word) : Prop :=
  (State.reset.hostSends [h, 1]).frames = [] ∧
  (State.reset.hostSends [h, 1]).decoder.words ++ (State.reset.hostSends [h, 1]).port = h :: ([] ++ [1]) ∧
  ([] : List Word).length + 1 = commandLength h

theorem oneWord_reserved : oneWord 0x00000000 ∧ oneWord 0x7FFFFFFF ∧ oneWord 0xC0000000 ∧ oneWord 0xFFFFFFFF :=
  ⟨⟨rfl, rfl, rfl⟩, ⟨rfl, rfl, rfl⟩, ⟨rfl, rfl, rfl⟩, rfl, rfl, rfl⟩

/-- One header for each way a header can be illegal: a reserved `OP` at both ends of each range, `RSV`, `V` and `LEN`. -/
theorem witness_IllegalHeaderSetsIllAndConsumesItsLength :
    (oneWord 0x00000000 ∧ (0x00000000#32).toNat / 2 ^ 28 ∈ [0x0, 0x7, 0xC, 0xD, 0xE, 0xF]) ∧
    (oneWord 0x7FFFFFFF ∧ (0x7FFFFFFF#32).toNat / 2 ^ 28 ∈ [0x0, 0x7, 0xC, 0xD, 0xE, 0xF]) ∧
    (oneWord 0xFFFFFFFF ∧ (0xFFFFFFFF#32).toNat / 2 ^ 28 ∈ [0x0, 0x7, 0xC, 0xD, 0xE, 0xF]) ∧
    ([0#32].length + 1 = commandLength 0x17FF0000 ∧ (0x17FF0000#32).toNat / 2 ^ 16 % 2 ^ 11 ≠ 0) ∧
    ([0#32].length + 1 = commandLength 0x28000000 ∧ (0x28000000#32).toNat / 2 ^ 27 % 2 = 1 ∧
      (0x28000000#32).toNat / 2 ^ 28 ∉ [0x1, 0x3, 0x4, 0x5, 0x6]) ∧
    (([] : List Word).length + 1 = commandLength 0x9000FFFF ∧ (0x9000FFFF#32).toNat % 2 ^ 16 ≠ 0 ∧
      (0x9000FFFF#32).toNat / 2 ^ 28 ≠ 0x6) :=
  ⟨⟨oneWord_reserved.1, by decide⟩, ⟨oneWord_reserved.2.1, by decide⟩, ⟨oneWord_reserved.2.2.2, by decide⟩,
    by decide, by decide, by decide⟩

theorem witness_StepRunsTheDecodedInstruction :
    (State.reset.frames = [] ∧ decode (.command [0x20000000, 0x00020003]) = .ok (.getPixel 3 2) ∧
      { State.reset with decoder := .inside 0x20000000 [], port := [0x00020003, 0xB0000000] }.decoder.words ++
          { State.reset with decoder := .inside 0x20000000 [], port := [0x00020003, 0xB0000000] }.port =
        [0x20000000, 0x00020003] ++ [0xB0000000]) ∧
    decode (.frame 0xFAA050) = .ok (.frameData 0xA5) ∧
      { State.reset with frames := [0xFAA050] }.frames = [0xFAA050#24] := by decide

theorem witness_DecoderPositionFollowsTheStream :
    State.reset.frames = [] ∧ State.reset.decoder.words ++ State.reset.port = [] ∧
    (State.reset.hostSends [0x18000000]).decoder.words ++ (State.reset.hostSends [0x18000000]).port =
        0x18000000 :: [] ∧ ([] : List Word).length + 1 < commandLength 0x18000000 ∧
    (State.reset.hostSends [0x18000000, 1, 2]).decoder.words ++ (State.reset.hostSends [0x18000000, 1, 2]).port =
        0x18000000 :: ([1] ++ [2]) ∧ [1#32].length + 1 = commandLength 0x18000000 := by decide

theorem witness_ArrivalInPiecesChangesNothing :
    (State.reset.frames = [] ∧ State.reset.decoder.words ++ State.reset.port ++ [] = []) ∧
    (State.reset.decoder.words ++ State.reset.port ++ [0x68000002, 0] = 0x68000002 :: [0] ∧
      [0#32].length + 1 < commandLength 0x68000002) ∧
    ∃ t, step (State.reset.hostSends [0x68000002, 0]) = .next t := ⟨by decide, by decide, _, rfl⟩

theorem witness_EveryStepCompletes : State.reset.frames = [] := rfl

theorem witness_PatternThatIsNoFrameFaults :
    { State.reset with frames := [0xFC0000] }.frames = [0xFC0000#24] ∧
    0xFC0000#24 &&& 0xFF0F0F#24 ≠ 0xF80000#24 ∧ 0xFC0000#24 &&& 0xFF0F0F#24 ≠ 0xFA0000#24 := by decide

theorem witness_CommandsRunOneAtATimeInOrder :
    (∀ i ∈ [Instr.fill true, .getPixel (-1) 5], i.wellFormed = true ∧ ∃ ws, encode i = .command ws) ∧
    State.reset.frames = [] ∧ State.reset.decoder = .boundary ∧
    (State.reset.hostSends [0x38000000, 0x20000000, 0x0005FFFF]).port =
      [Instr.fill true, .getPixel (-1) 5].flatMap commandWords := by
  refine ⟨?_, rfl, rfl, by decide⟩
  intro i hi
  simp only [List.mem_cons, List.not_mem_nil, or_false] at hi
  rcases hi with rfl | rfl <;> exact ⟨by decide, _, rfl⟩

theorem witness_CommitBeforeSetupSetsOrderOnly :
    State.reset.status.getLsbD 0 = false ∧
    ∃ t, exec .readStatus State.reset = .next t ∧ Instr.readStatus ≠ .commitDiff ∧ Instr.readStatus ≠ .commitFull :=
  ⟨by decide, _, rfl, by decide, by decide⟩

theorem witness_OneCommandRaisesAtMostOneError :
    (∃ t, step (State.reset.hostSends [0x90000001]) = .next t) ∧
    (State.reset.hostSends [0xA8000000]).frames = [] ∧
    (State.reset.hostSends [0xA8000000]).decoder.words ++ (State.reset.hostSends [0xA8000000]).port =
      0xA8000000 :: [] ∧
    (0xA8000000#32).toNat / 2 ^ 28 = 0xA ∧ (0xA8000000#32).toNat % 2 ^ 28 ≠ 0 ∧
    (0x90000001#32).toNat / 2 ^ 28 = 0x9 ∧ (0x90000001#32).toNat % 2 ^ 28 ≠ 0 :=
  ⟨⟨_, rfl⟩, rfl, rfl, by decide, by decide, by decide, by decide⟩

theorem witness_StatusBitsChangeAsTheTableSays :
    (State.reset.hostSends [0x28000000, 0]).frames = [] ∧
    (State.reset.hostSends [0x28000000, 0]).fetch = .illegal .unusedValueSet [] ∧
    State.reset.frames = [] ∧ State.reset.fetch = .waiting ∧ step State.reset = .next State.reset :=
  ⟨rfl, by decide, rfl, rfl, rfl⟩

theorem witness_ErrorBitsAreSticky :
    { State.reset with status := 0x0C }.flag .ill = true ∧ { State.reset with status := 0x0C }.flag .order = true ∧
    ∃ t, step { State.reset with status := 0x0C } = .next t := ⟨by decide, by decide, _, rfl⟩

theorem witness_ReadStatusReturnsExactlyTheLegalValues : LegalStatus 0x0F ∧ LegalStatus 0 ∧ ¬ LegalStatus 0x02 := by
  decide

theorem witness_ResultsComeFromGetPixelAndReadStatusOnly :
    ((∀ x y, Instr.fill true ≠ .getPixel x y) ∧ Instr.fill true ≠ .readStatus) ∧
    ((State.reset.hostSends [0x28000000, 0]).frames = [] ∧
      (State.reset.hostSends [0x28000000, 0]).fetch = .illegal .unusedValueSet [] ∧
      ∃ t, step (State.reset.hostSends [0x28000000, 0]) = .next t) ∧
    { State.reset with results := [7, 8] }.results = 7 :: [8] ∧
    ∃ t, exec .readStatus State.reset = .next t :=
  ⟨⟨by simp, by simp⟩, ⟨rfl, by decide, _, rfl⟩, rfl, _, rfl⟩

/-- The corners of the buffer. -/
theorem witness_PixelLayoutIsRowMajorMsbFirst :
    pixIndex 0 0 = (0, 7) ∧ pixIndex 127 63 = (1023, 0) ∧ (1023 < 1024 ∧ 7 < 8) := by decide

/-- In bounds at the corners, out of bounds one past them. -/
theorem witness_SetPixelWritesOneBit :
    (∀ p ∈ [((0 : Int), (0 : Int)), (127, 63)], 0 ≤ p.1 ∧ p.1 < 128 ∧ 0 ≤ p.2 ∧ p.2 < 64) ∧
    (∀ p ∈ [((-1 : Int), (0 : Int)), (128, 0), (0, -1), (0, 64)], ¬ (0 ≤ p.1 ∧ p.1 < 128 ∧ 0 ≤ p.2 ∧ p.2 < 64)) ∧
    0 ≠ (pixIndex 127 63).1 := by decide

theorem witness_PixelRoundTrip :
    (0 : Int) ≤ 127 ∧ (127 : Int) < 128 ∧ (0 : Int) ≤ 63 ∧ (63 : Int) < 64 ∧
    (∃ t, exec (.setPixel 127 63 true) State.reset = .next t) ∧ ((126 : Int), (63 : Int)) ≠ (127, 63) :=
  ⟨by decide, by decide, by decide, by decide, ⟨_, rfl⟩, by decide⟩

theorem witness_FillSetsEveryByte : 1023 < 1024 ∧ InBounds 127 63 := by decide

/-- A pixel of the rectangle, and a byte no pixel of it lies in. -/
theorem witness_DrawRectPaintsTheRectangle :
    (InBounds 127 63 ∧ min 120 127 ≤ (127 : Int) ∧ (63 : Int) ≤ max 60 63) ∧
    ∀ px py : Int, InBounds px py → min 120 127 ≤ px → px ≤ max 120 127 → min 60 63 ≤ py → py ≤ max 60 63 →
      (pixIndex px py).1 ≠ 0 := by
  refine ⟨by decide, ?_⟩
  intro px py h h1 h2 h3 h4
  simp only [InBounds, Config.W, Config.H, pixIndex, Config.rowBytes] at *
  omega

theorem witness_DrawRectCornersAndWholeScreen :
    (0 : Int) ≤ 0 ∧ (-32768 : Int) ≤ 0 ∧ (127 : Int) ≤ 127 ∧ (63 : Int) ≤ 32767 := by decide

theorem witness_DrawRectChangesAtMostItsPixels :
    (∃ t, exec (.drawRect (-5) (-5) 200 200 true) State.reset = .next t) ∧
    (after (exec (.drawRect 0 0 0 0 true) (filled 1 0x00))).pixRead 0 0 ≠ (filled 1 0x00).pixRead 0 0 :=
  ⟨⟨_, rfl⟩, by decide +kernel⟩

/-- One out-of-bounds drawing of each kind: a pixel, RC7's rectangle, a glyph left of the screen, a text below it. -/
theorem witness_ClippedDrawingChangesNothing :
    ¬ InBounds 128 0 ∧
    (∀ px py : Int, min 130 140 ≤ px → px ≤ max 130 140 → min 0 5 ≤ py → py ≤ max 0 5 → ¬ InBounds px py) ∧
    (∀ px py, GlyphPixel Config.atlas (-16) 0 0x4E00 px py → ¬ InBounds px py) ∧
    ∀ px py, TextPixel Config.atlas 0 64 [0x41, 0x0A, 0x41] px py → ¬ InBounds px py := by
  refine ⟨by decide, ?_, ?_, ?_⟩
  · intro px py h1 h2 h3 h4 h
    simp only [InBounds, Config.W, Config.H] at h
    omega
  · rintro px py ⟨r, c, hr, ⟨_, hc⟩, rfl, rfl⟩ h
    simp only [InBounds, Config.W, Config.H] at h
    omega
  · rintro px py ⟨pre, cp, post, _, _, r, c, hr, _, rfl, rfl⟩ h
    simp only [InBounds, Config.W, Config.H, textCursor] at h
    omega

theorem witness_DrawingDoesNotDependOnStatus : ∃ x y cps v, Instr.drawText 0 0 [0x41] true = .drawText x y cps v :=
  ⟨_, _, _, _, rfl⟩

/-- Each drawing command, and the operations that are none. -/
theorem witness_OnlyDrawingCommandsWriteTheFramebuffer :
    [Instr.setPixel 0 0 true, .fill true, .drawRect 0 0 1 1 true, .drawGlyph 0 0 0x41 true, .drawText 0 0 [0x0A] true].all
      isDrawing = true ∧
    [Instr.getPixel 0 0, .setup, .commitDiff, .commitFull, .readStatus, .frameCmd 0, .frameData 0, .reserved0 0,
      .reserved7 0, .reservedC 0].all (fun i => !isDrawing i) = true := by decide

/-- A pixel of the synthetic atlas' letter, and one that is none: row 1, columns 3 and 0. -/
theorem witness_DrawGlyphPaintsTheInk :
    InBounds 3 1 ∧ GlyphPixel testAtlas 0 0 0x41 3 1 ∧ ¬ GlyphPixel testAtlas 0 0 0x41 0 1 := by
  refine ⟨by decide, (mem_glyphPixels (a := testAtlas)).1 (by decide +kernel), fun h => ?_⟩
  exact absurd ((mem_glyphPixels (a := testAtlas)).2 h) (by decide +kernel)

theorem witness_GlyphWithoutCellDrawsNothing : Config.atlas.nGlyphs ≤ Config.atlas.nGlyphs := Nat.le_refl _

/-- Two atlases that differ in every odd byte and in no even one. -/
theorem witness_NarrowGlyphIgnoresByteOne :
    0x41 < 128 ∧ testAtlas.nGlyphs = { testAtlas with byte := fun n => testAtlas.byte n ^^^ BitVec.ofNat 8 (n % 2) }.nGlyphs ∧
    ∀ n, n % 2 = 0 →
      testAtlas.byte n = { testAtlas with byte := fun n => testAtlas.byte n ^^^ BitVec.ofNat 8 (n % 2) }.byte n := by
  refine ⟨by decide, rfl, fun n h => ?_⟩
  simp [h]

/-- TX2's second letter, at the cursor after a newline. -/
theorem witness_DrawTextPaintsTheInkOfItsGlyphs :
    InBounds 13 17 ∧ TextPixel testAtlas 10 0 [0x41, 0x0A, 0x41] 13 17 := by
  refine ⟨by decide, mem_textPixels.1 ?_⟩
  decide +kernel

theorem witness_TextCursorStaysInRange :
    (Instr.drawText 32767 (-32768) [0x4E00, 0x0A, 0x41] true).wellFormed = true ∧
    [0x4E00, 0x0A, 0x41] = [0x4E00, 0x0A] ++ [0x41] := by decide

theorem witness_StepsSendWholeFrames : ∃ t, step (State.reset.hostSends [0x80000000]) = .next t := ⟨_, rfl⟩

/-- The corners of the controller's address range, and the rows where the banks meet. -/
theorem witness_ControllerAddressesAreABijection :
    addrOf 0 0 = (0, 0) ∧ addrOf 31 7 = (31, 7) ∧ addrOf 32 0 = (0, 8) ∧ addrOf 63 7 = (31, 15) ∧
    (31 < 32 ∧ 15 < 16 ∧ 511 < 512) := by decide

theorem witness_CommitFullSendsEveryWord : { State.reset with status := 1 }.status.getLsbD 0 = true := by decide

theorem witness_CommitDiffSendsTheDifferingWords :
    { State.reset with status := 1 }.status.getLsbD 0 = true ∧
    { State.reset with status := 3 }.status.getLsbD 0 = true := by decide

theorem witness_UnsyncedCommitDiffIsCommitFull :
    { State.reset with status := 1 }.flag .synced = false ∧ ∃ t, exec .setup State.reset = .next t := ⟨by decide, _, rfl⟩

theorem witness_CommitDiffAfterCommitFullIsSilent :
    { State.reset with status := 1 }.flag .init = true ∧
    ∃ t, exec .commitFull { State.reset with status := 1 } = .next t :=
  ⟨by decide, _, exec_commitFull { State.reset with status := 1 } (by decide)⟩

theorem witness_OnePixelThenCommitDiffSendsItsWord :
    (blank 3).flag .init = true ∧ (blank 3).flag .synced = true ∧
    (∀ i, i < 1024 → (blank 3).cbByte i = (blank 3).fbByte i) ∧
    (∃ t, exec (.setPixel 127 63 true) (blank 3) = .next t) ∧ InBounds 127 63 := by
  refine ⟨rfl, rfl, fun i hi => ?_, ⟨_, rfl⟩, by decide⟩
  simp [State.cbByte, State.fbByte, blank, Memory.read_ofBytes, hi]

theorem witness_TrafficOfTheProtocolCommands :
    (blank 3).flag .init = true ∧ (blank 3).flag .synced = true ∧
    (blank 1).flag .init = true ∧ (blank 1).flag .synced = false ∧ State.reset.flag .init = false :=
  ⟨rfl, rfl, rfl, rfl, rfl⟩

theorem witness_CommittedBufferIsHidden :
    Instr.commitFull ≠ .commitDiff ∧ State.reset.flag .synced = false ∧ 1023 < 1024 := by decide

theorem witness_ResetLeavesTheStatedValues :
    { State.reset with draw := State.reset.draw } = State.reset ∧
    State.reset.warmReset = { State.reset with draw := 1 } := ⟨rfl, rfl⟩

/-- A reset two events into SETUP, in the middle of its first frame. -/
theorem witness_ResetInsideACommandAbandonsIt :
    ∃ tr u, (State.reset.hostSends [0x80000000]).abandon 2 = some (tr, u) := ⟨_, _, rfl⟩

theorem witness_ResetSatisfiesInv : State.reset.Inv := ⟨rfl, rfl, by decide, rfl, rfl, trivial⟩

theorem witness_StepKeepsInv : State.reset.Inv ∧ ∃ t, step State.reset = .next t := ⟨witness_ResetSatisfiesInv, _, rfl⟩

theorem reset_displayInv : State.reset.DisplayInv := ⟨rfl, rfl, rfl, fun h => absurd h (by decide)⟩

theorem witness_StepKeepsDisplayInv : State.reset.DisplayInv ∧ ∃ t, step State.reset = .next t :=
  ⟨reset_displayInv, _, rfl⟩

theorem witness_CommitShowsTheFramebuffer :
    { State.reset with status := 1 }.DisplayInv ∧ { State.reset with status := 1 }.flag .init = true :=
  ⟨⟨rfl, rfl, rfl, fun h => absurd h (by decide)⟩, by decide⟩

theorem witness_ReachableStatesAreSound : Reachable State.reset := .reset 0

/-- A first picture, and two redraws, the second of them empty. -/
theorem witness_RefreshOrderShowsTheDrawing :
    Reachable State.reset ∧ (∀ i ∈ [Instr.drawGlyph 0 0 0x41 true], isDrawing i = true) ∧
    ∀ draws ∈ [[Instr.drawText 0 16 [0x41] true, .setPixel 0 0 false], []], ∀ i ∈ draws, isDrawing i = true :=
  ⟨.reset 0, by decide, by decide⟩

end Sys2Proof.Tests
end

/-! # The state's own rules (spec/10_state.md): who writes FB, CB, STATUS and the result queue -/

section

namespace Sys2Proof.Machine

/-! ## An operation by its kind

`exec_cases` says what one operation can do to one state. The statements about what an operation does not look at
compare its runs on two states, so they need the shape of its effect before the state is given. -/

/-- The kinds of operation, each with what it does to every state where one equation covers the kind. -/
inductive InstrKind : Instr → Prop where
  /-- a drawing command other than FILL writes one value to a list of pixels that no state decides -/
  | paints {i : Instr} (ps : List (Int × Int)) (v : Bool) (hd : isDrawing i = true)
      (hx : ∀ s, exec i s = .next (s.paint ps v)) : InstrKind i
  | fill (v : Bool) : InstrKind (.fill v)
  | getPixel (x y : Int) : InstrKind (.getPixel x y)
  | readStatus : InstrKind .readStatus
  | setup : InstrKind .setup
  | commitDiff : InstrKind .commitDiff
  | commitFull : InstrKind .commitFull
  | sendsFrame {i : Instr} (rs : Bool) (v : Byte) (hi : i = .frameCmd v ∨ i = .frameData v)
      (hx : ∀ s, exec i s = .next (s.emit (frameEvents rs v))) : InstrKind i
  | reserved {i : Instr} (hi : (∃ r, i = .reserved0 r) ∨ (∃ r, i = .reserved7 r) ∨ ∃ r, i = .reservedC r)
      (hx : ∀ s, exec i s = .next (s.raise .illegal)) : InstrKind i

/-- DRAW_TEXT paints the pixels of its glyphs (R137). -/
theorem exec_drawText_eq_paint (x y : Int) (cps : List Nat) (v : Bool) (s : State) :
    exec (.drawText x y cps v) s = .next (s.paint (textPixels Config.atlas x x y cps) v) := by
  rw [exec_drawText, drawTextFrom_eq_paint]

theorem instrKind (i : Instr) : InstrKind i := by
  cases i with
  | setPixel x y v => exact .paints [(x, y)] v rfl fun s => exec_setPixel s x y v
  | getPixel x y => exact .getPixel x y
  | fill v => exact .fill v
  | drawRect x0 y0 x1 y1 v => exact .paints _ v rfl fun s => exec_drawRect s x0 y0 x1 y1 v
  | drawGlyph x y cp v => exact .paints _ v rfl fun s => exec_drawGlyph s x y cp v
  | drawText x y cps v => exact .paints _ v rfl (exec_drawText_eq_paint x y cps v)
  | setup => exact .setup
  | commitDiff => exact .commitDiff
  | commitFull => exact .commitFull
  | readStatus => exact .readStatus
  | frameCmd v => exact .sendsFrame false v (.inl rfl) fun s => exec_frameCmd s v
  | frameData v => exact .sendsFrame true v (.inr rfl) fun s => exec_frameData s v
  | reserved0 r => exact .reserved (.inl ⟨r, rfl⟩) fun s => exec_reserved0 s r
  | reserved7 r => exact .reserved (.inr (.inl ⟨r, rfl⟩)) fun s => exec_reserved7 s r
  | reservedC r => exact .reserved (.inr (.inr ⟨r, rfl⟩)) fun s => exec_reservedC s r

/-- Every operation answers a next state (R253). -/
theorem exec_total (i : Instr) (s : State) : ∃ t, exec i s = .next t := by
  obtain ⟨t, ht, -⟩ := exec_cases i s
  exact ⟨t, ht⟩

/-- An operation has one next state. -/
theorem exec_unique {i : Instr} {s t u : State} (ht : exec i s = .next t) (hu : exec i s = .next u) : t = u := by
  injection ht.symm.trans hu

/-- A commit is sent or refused (R175). -/
theorem exec_commitFull_cases {s t : State} (h : exec .commitFull s = .next t) :
    (s.flag .init = true ∧ t = s.commit Config.commandBytes traverse) ∨
      (s.flag .init = false ∧ t = s.raise .orderError) := by
  cases hi : s.flag .init
  · exact .inr ⟨rfl, exec_unique h (exec_commitFull_refused s hi)⟩
  · exact .inl ⟨rfl, exec_unique h (exec_commitFull s hi)⟩

theorem exec_commitDiff_cases {s t : State} (h : exec .commitDiff s = .next t) :
    (s.flag .init = true ∧
        t = s.commit Config.commandBytes (traverse.filter fun w => !s.flag .synced || s.differs w)) ∨
      (s.flag .init = false ∧ t = s.raise .orderError) := by
  cases hi : s.flag .init
  · exact .inr ⟨rfl, exec_unique h (exec_commitDiff_refused s hi)⟩
  · exact .inl ⟨rfl, exec_unique h (exec_commitDiff s hi)⟩

/-- With no valid last-sent copy COMMIT_DIFF sends every word (R174). -/
theorem exec_commitDiff_unsynced {s : State} (hi : s.flag .init = true) (hs : s.flag .synced = false) :
    exec .commitDiff s = .next (s.commit Config.commandBytes traverse) := by
  rw [exec_commitDiff s hi, hs]
  simp

/-! ## The step at an illegal command and at none -/

theorem step_illegal {s : State} {e : DecodeError} {rest : List Word} (hf : s.frames = [])
    (he : s.fetch = .illegal e rest) : step s = .next ((s.afterCommand rest).raise .illegal) := by
  simp [step, hf, he]

theorem step_waiting {s : State} (hf : s.frames = []) (hw : s.fetch = .waiting) : step s = .next s.absorb := by
  simp [step, hf, hw]

/-! ## Painting writes FB and looks at FB alone -/

section
variable (s : State) (ps : List (Int × Int)) (v : Bool)

@[simp] theorem State.paint_cb : (s.paint ps v).cb = s.cb := by rw [State.paint_eq]
@[simp] theorem State.paint_status : (s.paint ps v).status = s.status := by rw [State.paint_eq]
@[simp] theorem State.paint_results : (s.paint ps v).results = s.results := by rw [State.paint_eq]

theorem State.paint_withResults (r : List Word) :
    State.paint ps v { s with results := r } = { s.paint ps v with results := r } := by
  have hfb := State.paint_fb_congr (s := s) (t := { s with results := r }) rfl rfl ps v
  rw [State.paint_eq { s with results := r }, hfb, State.paint_eq s]

theorem State.paint_withCb (m : Memory) :
    State.paint ps v { s with cb := m } = { s.paint ps v with cb := m } := by
  have hfb := State.paint_fb_congr (s := s) (t := { s with cb := m }) rfl rfl ps v
  rw [State.paint_eq { s with cb := m }, hfb, State.paint_eq s]
end

/-! ## FB (R23) -/

/-- An operation that is no drawing command leaves FB. -/
theorem exec_fb_of_not_drawing {i : Instr} {s t : State} (h : exec i s = .next t) (hd : isDrawing i = false) :
    t.fb = s.fb := by
  cases instrKind i with
  | paints ps v hd' => rw [hd] at hd'; cases hd'
  | fill v => cases hd
  | getPixel x y => rw [exec_unique h (exec_getPixel s x y), State.pushResult_fb]
  | readStatus => rw [exec_unique h (exec_readStatus s), State.pushResult_fb]
  | setup => rw [exec_unique h (exec_setup s)]; simp
  | commitDiff => obtain ⟨-, rfl⟩ | ⟨-, rfl⟩ := exec_commitDiff_cases h <;> simp
  | commitFull => obtain ⟨-, rfl⟩ | ⟨-, rfl⟩ := exec_commitFull_cases h <;> simp
  | sendsFrame rs v _ hx => rw [exec_unique h (hx s), State.emit_fb]
  | reserved _ hx => rw [exec_unique h (hx s), State.raise_fb]

/-- Settles O34: each drawing command by its own equation, every other operation by `exec_fb_of_not_drawing`. -/
theorem onlyDrawingCommandsWriteTheFramebuffer : Obligations.OnlyDrawingCommandsWriteTheFramebuffer := by
  intro i s
  obtain ⟨t, ht⟩ := exec_total i s
  refine ⟨t, ht, ?_, ?_, ?_, ?_, ?_, exec_fb_of_not_drawing ht⟩
  · rintro x y v rfl
    exact exec_unique ht (exec_setPixel s x y v)
  · rintro v rfl
    rw [exec_unique ht (exec_fill s v)]
    exact ⟨rfl, fun j hj => State.fbByte_setFb s _ hj⟩
  · rintro x0 y0 x1 y1 v rfl
    exact exec_unique ht (exec_drawRect s x0 y0 x1 y1 v)
  · rintro x y cp v rfl
    exact exec_unique ht (exec_drawGlyph s x y cp v)
  · rintro x y cps v rfl
    rw [← textPixels_eq_flatMap]
    exact exec_unique ht (exec_drawText_eq_paint x y cps v s)

/-! ## The result queue (R27) -/

/-- An operation that is neither GET_PIXEL nor READ_STATUS leaves the result queue. -/
theorem exec_results_of_not_read {i : Instr} {s t : State} (h : exec i s = .next t) (hg : ∀ x y, i ≠ .getPixel x y)
    (hr : i ≠ .readStatus) : t.results = s.results := by
  cases instrKind i with
  | paints ps v _ hx => rw [exec_unique h (hx s), State.paint_results]
  | fill v => rw [exec_unique h (exec_fill s v), State.setFb_results]
  | getPixel x y => exact absurd rfl (hg x y)
  | readStatus => exact absurd rfl hr
  | setup => rw [exec_unique h (exec_setup s)]; simp
  | commitDiff => obtain ⟨-, rfl⟩ | ⟨-, rfl⟩ := exec_commitDiff_cases h <;> simp
  | commitFull => obtain ⟨-, rfl⟩ | ⟨-, rfl⟩ := exec_commitFull_cases h <;> simp
  | sendsFrame rs v _ hx => rw [exec_unique h (hx s), State.emit_results]
  | reserved _ hx => rw [exec_unique h (hx s), State.raise_results]

/-- GET_PIXEL and READ_STATUS append one word. -/
theorem exec_results_of_read {i : Instr} {s t : State} (h : exec i s = .next t)
    (hi : (∃ x y, i = .getPixel x y) ∨ i = .readStatus) : ∃ w, t.results = s.results ++ [w] := by
  obtain ⟨x, y, rfl⟩ | rfl := hi
  · exact ⟨_, by rw [exec_unique h (exec_getPixel s x y), State.pushResult_results]⟩
  · exact ⟨_, by rw [exec_unique h (exec_readStatus s), State.pushResult_results]⟩

theorem State.pushResult_prependResults (s : State) (w : Word) (q : List Word) :
    State.pushResult w { s with results := q ++ s.results } =
      { s.pushResult w with results := q ++ (s.pushResult w).results } := by
  simp [State.pushResult]

theorem State.commit_withResults (k : Config.CommandBytes) (ws : List Nat) (s : State) (r : List Word) :
    State.commit k ws { s with results := r } = { s.commit k ws with results := r } := rfl

/-- No operation looks at the result queue: words in front of it stay there and change nothing else. -/
theorem exec_prependResults {i : Instr} {s t : State} (h : exec i s = .next t) (q : List Word) :
    exec i { s with results := q ++ s.results } = .next { t with results := q ++ t.results } := by
  cases instrKind i with
  | paints ps v _ hx => rw [exec_unique h (hx s), hx, State.paint_withResults, State.paint_results]
  | fill v => rw [exec_unique h (exec_fill s v)]; rfl
  | getPixel x y =>
    rw [exec_unique h (exec_getPixel s x y), ← State.pushResult_prependResults]; rfl
  | readStatus => rw [exec_unique h (exec_readStatus s), ← State.pushResult_prependResults]; rfl
  | setup => rw [exec_unique h (exec_setup s)]; rfl
  | commitDiff =>
    obtain ⟨hi, rfl⟩ | ⟨hi, rfl⟩ := exec_commitDiff_cases h
    · rw [exec_commitDiff { s with results := q ++ s.results } hi, State.commit_withResults, State.commit_results]; rfl
    · exact exec_commitDiff_refused { s with results := q ++ s.results } hi
  | commitFull =>
    obtain ⟨hi, rfl⟩ | ⟨hi, rfl⟩ := exec_commitFull_cases h
    · rw [exec_commitFull { s with results := q ++ s.results } hi, State.commit_withResults, State.commit_results]
    · exact exec_commitFull_refused { s with results := q ++ s.results } hi
  | sendsFrame rs v _ hx => rw [exec_unique h (hx s), hx]; rfl
  | reserved _ hx => rw [exec_unique h (hx s), hx]; rfl

/-- Settles O23, by the kinds of operation; the host's end of the queue is `hostTakes` itself. -/
theorem resultsComeFromGetPixelAndReadStatusOnly : Obligations.ResultsComeFromGetPixelAndReadStatusOnly := by
  refine ⟨fun i s => ?_, ?_, ?_, fun i s t q h => exec_prependResults h q, rfl⟩
  · obtain ⟨t, ht⟩ := exec_total i s
    exact ⟨t, ht, exec_results_of_read ht, exec_results_of_not_read ht⟩
  · intro s t e rest hf he h
    rw [step_illegal hf he] at h
    injection h with h
    subst h
    simp
  · intro s w q hq
    simp [State.hostTakes, hq]

/-! ## CB (R24) -/

/-- Only a commit writes CB, and it makes it equal FB. -/
theorem exec_cb {i : Instr} {s t : State} (h : exec i s = .next t) :
    t.cb = s.cb ∨ ((i = .commitDiff ∨ i = .commitFull) ∧ ∀ j, j < 1024 → t.cbByte j = s.fbByte j) := by
  cases instrKind i with
  | paints ps v _ hx => rw [exec_unique h (hx s)]; exact .inl (State.paint_cb s ps v)
  | fill v => rw [exec_unique h (exec_fill s v)]; exact .inl rfl
  | getPixel x y => rw [exec_unique h (exec_getPixel s x y)]; exact .inl rfl
  | readStatus => rw [exec_unique h (exec_readStatus s)]; exact .inl rfl
  | setup => rw [exec_unique h (exec_setup s)]; exact .inl rfl
  | commitDiff =>
    obtain ⟨-, rfl⟩ | ⟨-, rfl⟩ := exec_commitDiff_cases h
    · exact .inr ⟨.inl rfl, fun j hj => State.cbByte_commit _ _ s hj⟩
    · exact .inl rfl
  | commitFull =>
    obtain ⟨-, rfl⟩ | ⟨-, rfl⟩ := exec_commitFull_cases h
    · exact .inr ⟨.inr rfl, fun j hj => State.cbByte_commit _ _ s hj⟩
    · exact .inl rfl
  | sendsFrame rs v _ hx => rw [exec_unique h (hx s)]; exact .inl rfl
  | reserved _ hx => rw [exec_unique h (hx s)]; exact .inl rfl

/-- A commit of given words overwrites CB without looking at it: the words' bytes are FB's. -/
theorem State.commit_withCb (k : Config.CommandBytes) (ws : List Nat) (s : State) (m : Memory) :
    State.commit k ws { s with cb := m } = s.commit k ws := rfl

/-- An operation other than a COMMIT_DIFF that compares does the same whatever CB holds: either it leaves CB, or it
overwrites it with what CB has no part in. -/
theorem exec_withCb {i : Instr} {s t : State} (h : exec i s = .next t)
    (hc : i ≠ .commitDiff ∨ s.flag .synced = false) (m : Memory) :
    (exec i { s with cb := m } = .next { t with cb := m } ∧ t.cb = s.cb) ∨ exec i { s with cb := m } = .next t := by
  cases instrKind i with
  | paints ps v _ hx =>
    rw [exec_unique h (hx s), hx, State.paint_withCb]
    exact .inl ⟨rfl, State.paint_cb s ps v⟩
  | fill v => rw [exec_unique h (exec_fill s v)]; exact .inl ⟨rfl, rfl⟩
  | getPixel x y => rw [exec_unique h (exec_getPixel s x y)]; exact .inl ⟨rfl, rfl⟩
  | readStatus => rw [exec_unique h (exec_readStatus s)]; exact .inl ⟨rfl, rfl⟩
  | setup => rw [exec_unique h (exec_setup s)]; exact .inl ⟨rfl, rfl⟩
  | commitDiff =>
    have hs : s.flag .synced = false := hc.resolve_left fun hne => hne rfl
    obtain ⟨hi, -⟩ | ⟨hi, rfl⟩ := exec_commitDiff_cases h
    · rw [exec_unique h (exec_commitDiff_unsynced hi hs), ← State.commit_withCb _ _ s m]
      exact .inr (exec_commitDiff_unsynced (s := { s with cb := m }) hi hs)
    · exact .inl ⟨exec_commitDiff_refused { s with cb := m } hi, rfl⟩
  | commitFull =>
    obtain ⟨hi, rfl⟩ | ⟨hi, rfl⟩ := exec_commitFull_cases h
    · rw [← State.commit_withCb _ _ s m]
      exact .inr (exec_commitFull { s with cb := m } hi)
    · exact .inl ⟨exec_commitFull_refused { s with cb := m } hi, rfl⟩
  | sendsFrame rs v _ hx => rw [exec_unique h (hx s), hx]; exact .inl ⟨rfl, rfl⟩
  | reserved _ hx => rw [exec_unique h (hx s), hx]; exact .inl ⟨rfl, rfl⟩

/-- Settles O51: `exec_cb` for the writes, `exec_withCb` for the reads. -/
theorem committedBufferIsHidden : Obligations.CommittedBufferIsHidden := by
  refine ⟨fun i s => ?_, fun i s m hc => ?_⟩
  · obtain ⟨t, ht⟩ := exec_total i s
    refine ⟨t, ht, exec_cb ht, ?_⟩
    rintro rfl
    exact exec_results_of_not_read ht (by simp) (by simp)
  · obtain ⟨t, ht⟩ := exec_total i s
    obtain ⟨hm, hcb⟩ | hm := exec_withCb ht hc m
    · exact ⟨t, _, ht, hm, rfl, .inl ⟨hcb, rfl⟩⟩
    · exact ⟨t, t, ht, hm, rfl, .inr rfl⟩

/-! ## STATUS (R25) -/

/-- The table of R25 for one operation from `s` to `t`: what it sets and clears, bit by bit. -/
def StatusTable (i : Instr) (s t : State) : Prop :=
  t.flag .init = (s.flag .init || decide (i = .setup)) ∧
  t.flag .synced =
    (if i = .setup then false
     else s.flag .synced || (s.flag .init && (decide (i = .commitDiff) || decide (i = .commitFull)))) ∧
  (t.flag .ill = true ↔ s.flag .ill = true ∨
    (∃ r, i = .reserved0 r) ∨ (∃ r, i = .reserved7 r) ∨ ∃ r, i = .reservedC r) ∧
  t.flag .order =
    (s.flag .order || (!s.flag .init && (decide (i = .commitDiff) || decide (i = .commitFull)))) ∧
  t.status &&& 0xFFFFFFF0#32 = s.status &&& 0xFFFFFFF0#32

/-- The operations the table of R25 names. -/
def touchesStatus : Instr → Bool
  | .setup | .commitDiff | .commitFull | .reserved0 _ | .reserved7 _ | .reservedC _ => true
  | .setPixel .. | .getPixel .. | .fill _ | .drawRect .. | .drawGlyph .. | .drawText .. => false
  | .readStatus | .frameCmd _ | .frameData _ => false

theorem touchesStatus_of_isDrawing {i : Instr} (hd : isDrawing i = true) : touchesStatus i = false := by
  cases i <;> simp_all [isDrawing, touchesStatus]

theorem touchesStatus_of_frame {i : Instr} {v : Byte} (hi : i = .frameCmd v ∨ i = .frameData v) :
    touchesStatus i = false := by
  obtain rfl | rfl := hi <;> rfl

/-- Bits 31:4 are none of the four that are not hardwired. -/
theorem StatusBit.mask_and_hardwired (b : StatusBit) : b.mask &&& 0xFFFFFFF0#32 = 0#32 := by
  cases b <;> decide

theorem StatusBit.not_mask_and_hardwired (b : StatusBit) : ~~~ b.mask &&& 0xFFFFFFF0#32 = 0xFFFFFFF0#32 := by
  cases b <;> decide

theorem hardwired_or_mask (w : Word) (b : StatusBit) :
    (w ||| b.mask) &&& 0xFFFFFFF0#32 = w &&& 0xFFFFFFF0#32 := by
  rw [BitVec.and_or_distrib_right, b.mask_and_hardwired, BitVec.or_zero]

theorem hardwired_and_not_mask (w : Word) (b : StatusBit) :
    (w &&& ~~~ b.mask) &&& 0xFFFFFFF0#32 = w &&& 0xFFFFFFF0#32 := by
  rw [BitVec.and_assoc, b.not_mask_and_hardwired]

/-- An operation the table does not name meets it by leaving STATUS. -/
theorem statusTable_of_status_eq {i : Instr} {s t : State} (hi : touchesStatus i = false)
    (h : t.status = s.status) : StatusTable i s t := by
  have hs : i ≠ .setup := by rintro rfl; cases hi
  have hd : i ≠ .commitDiff := by rintro rfl; cases hi
  have hf : i ≠ .commitFull := by rintro rfl; cases hi
  have hr : ¬ ((∃ r, i = .reserved0 r) ∨ (∃ r, i = .reserved7 r) ∨ ∃ r, i = .reservedC r) := by
    rintro (⟨r, rfl⟩ | ⟨r, rfl⟩ | ⟨r, rfl⟩) <;> cases hi
  simp [StatusTable, State.flag_congr h, h, hs, hd, hf, hr]

/-- A commit that is sent sets SYNCED, INIT being set. -/
theorem statusTable_commit {i : Instr} {s : State} (hc : i = .commitDiff ∨ i = .commitFull)
    (hi : s.flag .init = true) (ws : List Nat) : StatusTable i s (s.commit Config.commandBytes ws) := by
  obtain rfl | rfl := hc <;> simp [StatusTable, hi, hardwired_or_mask]

/-- A commit that is refused sets ORDER, INIT not being set. -/
theorem statusTable_commit_refused {i : Instr} {s : State} (hc : i = .commitDiff ∨ i = .commitFull)
    (hi : s.flag .init = false) : StatusTable i s (s.raise .orderError) := by
  obtain rfl | rfl := hc <;> simp [StatusTable, hi, ErrorCode.bit, hardwired_or_mask]

/-- Every operation meets the table of R25. -/
theorem exec_statusTable {i : Instr} {s t : State} (h : exec i s = .next t) : StatusTable i s t := by
  cases instrKind i with
  | paints ps v hd hx =>
    rw [exec_unique h (hx s)]
    exact statusTable_of_status_eq (touchesStatus_of_isDrawing hd) (State.paint_status s ps v)
  | fill v => rw [exec_unique h (exec_fill s v)]; exact statusTable_of_status_eq rfl rfl
  | getPixel x y => rw [exec_unique h (exec_getPixel s x y)]; exact statusTable_of_status_eq rfl rfl
  | readStatus => rw [exec_unique h (exec_readStatus s)]; exact statusTable_of_status_eq rfl rfl
  | setup =>
    rw [exec_unique h (exec_setup s)]
    simp [StatusTable, hardwired_or_mask, hardwired_and_not_mask]
  | commitDiff =>
    obtain ⟨hi, rfl⟩ | ⟨hi, rfl⟩ := exec_commitDiff_cases h
    · exact statusTable_commit (.inl rfl) hi _
    · exact statusTable_commit_refused (.inl rfl) hi
  | commitFull =>
    obtain ⟨hi, rfl⟩ | ⟨hi, rfl⟩ := exec_commitFull_cases h
    · exact statusTable_commit (.inr rfl) hi _
    · exact statusTable_commit_refused (.inr rfl) hi
  | sendsFrame rs v hi hx =>
    rw [exec_unique h (hx s)]
    exact statusTable_of_status_eq (touchesStatus_of_frame hi) rfl
  | reserved hi hx =>
    rw [exec_unique h (hx s)]
    obtain ⟨r, rfl⟩ | ⟨r, rfl⟩ | ⟨r, rfl⟩ := hi <;> simp [StatusTable, ErrorCode.bit, hardwired_or_mask]

/-- Settles O19: the operations by `exec_statusTable`; an illegal command raises ILL, a waiting step leaves STATUS. -/
theorem statusBitsChangeAsTheTableSays : Obligations.StatusBitsChangeAsTheTableSays := by
  refine ⟨fun i s => ?_, ?_, ?_, rfl, fun s => rfl⟩
  · obtain ⟨t, ht⟩ := exec_total i s
    exact ⟨t, ht, exec_statusTable ht⟩
  · intro s e rest hf he
    exact ⟨_, step_illegal hf he, rfl⟩
  · intro s t hf hw h
    rw [step_waiting hf hw] at h
    injection h with h
    rw [← h, State.absorb_status]

end Sys2Proof.Machine
end

/-! # One pixel (spec/40_framebuffer.md): SET_PIXEL and GET_PIXEL -/

section

namespace Sys2Proof.Machine

/-! ## SET_PIXEL (R100) -/

/-- The byte of R100's formula, the value as a bit written by cases. -/
theorem putBit_eq_ite (byte : Byte) (b : Nat) (v : Bool) :
    putBit byte b v = (byte &&& ~~~ (1#8 <<< b)) ||| ((if v then 1#8 else 0#8) <<< b) := by
  cases v <;> rfl

/-- `PixWrite` writes `fb` and nothing else: it paints one pixel. -/
theorem State.pixWrite_eq (s : State) (x y : Int) (v : Bool) :
    s.pixWrite x y v = { s with fb := (s.pixWrite x y v).fb } :=
  State.paint_eq s [(x, y)] v

/-- The byte of an in-bounds pixel after `PixWrite`. -/
theorem State.fbByte_pixWrite_self {x y : Int} (h : InBounds x y) (s : State) (v : Bool) :
    (s.pixWrite x y v).fbByte (pixIndex x y).1 = putBit (s.fbByte (pixIndex x y).1) (pixIndex x y).2 v := by
  rw [State.fbByte_pixWrite, if_pos ⟨h, rfl⟩]

/-- `PixWrite` leaves every byte but the pixel's own. -/
theorem State.fbByte_pixWrite_of_ne {x y : Int} {a : Nat} (h : a ≠ (pixIndex x y).1) (s : State) (v : Bool) :
    (s.pixWrite x y v).fbByte a = s.fbByte a := by
  rw [State.fbByte_pixWrite, if_neg fun c => h c.2]

/-- Settles O25: SET_PIXEL is one `PixWrite`, which paints one pixel and so keeps every other field. -/
theorem setPixelWritesOneBit : Obligations.SetPixelWritesOneBit := by
  intro s x y v
  refine ⟨_, exec_setPixel s x y v, State.pixWrite_eq s x y v, fun hin => ?_, fun hout => ?_, fun a ha => ?_⟩
  · rw [State.fbByte_pixWrite_self hin, putBit_eq_ite]
  · exact State.pixWrite_outOfBounds hout v
  · exact State.fbByte_pixWrite_of_ne ha s v

/-! ## GET_PIXEL (R101, R102) -/

/-- A pixel reads 1 when it is in bounds and its bit is set. -/
theorem State.pixRead_iff (s : State) (x y : Int) :
    s.pixRead x y = true ↔ InBounds x y ∧ (s.fbByte (pixIndex x y).1).getLsbD (pixIndex x y).2 = true := by
  unfold State.pixRead
  by_cases h : InBounds x y
  · rw [if_pos h, and_iff_right h]
  · rw [if_neg h, iff_false_right fun c => h c.1]
    exact Bool.false_ne_true

/-- The word GET_PIXEL appends for a pixel's value. -/
theorem setWidth_ofBool_eq_ite (b : Bool) : (BitVec.ofBool b).setWidth 32 = if b then 1#32 else 0#32 := by
  cases b <;> rfl

/-- Settles O26: GET_PIXEL appends the word of `PixRead`, whose condition is `State.pixRead_iff`. -/
theorem getPixelAppendsThePixel : Obligations.GetPixelAppendsThePixel := by
  intro s x y
  have hword : (BitVec.ofBool (s.pixRead x y)).setWidth 32 =
      if InBounds x y ∧ (s.fbByte (pixIndex x y).1).getLsbD (pixIndex x y).2 = true then 1#32 else 0#32 := by
    rw [setWidth_ofBool_eq_ite]
    exact if_congr (s.pixRead_iff x y) rfl rfl
  rw [exec_getPixel, hword]
  rfl

end Sys2Proof.Machine
end

/-! # The wire (spec/42_protocol.md): the frames as 24 bits -/

section

namespace Sys2Proof.Machine

/-- Emitting a frame appends its 24 bits to the trace, leaves both lines low and keeps every other field (R161). -/
theorem State.emit_frameEvents (s : State) (rs : Bool) (v : Byte) :
    s.emit (frameEvents rs v) = { s with wire := s.wire ++ frameEvents rs v, data := false, clk := false } := by
  rw [State.emit, dataAfter_frameEvents, clkAfter_frameEvents]

/-- Settles O41: each kind of frame is emitted whole (`State.emit_frameEvents`), its bits by `frameEvents_bits`. -/
theorem framesAreTwentyFourBits : Obligations.FramesAreTwentyFourBits := by
  intro s v bits
  have hbits : ∀ rs, frameEvents rs v = bits rs := fun rs => frameEvents_bits rs v
  constructor
  · rw [exec_frameCmd, State.emit_frameEvents, hbits]
  · rw [exec_frameData, State.emit_frameEvents, hbits]

end Sys2Proof.Machine
end

/-! # Errors (spec/60_exceptions.md): illegal commands, commits before SETUP, the sticky bits -/

section

namespace Sys2Proof

/-! ## Illegal headers (R76, R78, R211) -/

/-- The operations of the reserved rows (R78). -/
def Instr.IsReserved (i : Instr) : Prop :=
  (∃ r, i = .reserved0 r) ∨ (∃ r, i = .reserved7 r) ∨ ∃ r, i = .reservedC r

/-- The reserved values of `OP`, by what they select (R75, R78). -/
def Op.isReserved : Op → Bool
  | .reserved0 | .reserved7 | .reservedC => true
  | .setPixel | .getPixel | .fill | .drawRect | .drawGlyph | .drawText => false
  | .setup | .commitDiff | .commitFull | .readStatus => false

theorem opOf_isReserved_iff (o : BitVec 4) :
    (opOf o).isReserved = true ↔ o.toNat ∈ [0x0, 0x7, 0xC, 0xD, 0xE, 0xF] := by
  revert o; decide

theorem opOf_usesV_iff (o : BitVec 4) : (opOf o).usesV = true ↔ o.toNat ∈ [0x1, 0x3, 0x4, 0x5, 0x6] := by
  revert o; decide

theorem opOf_usesLen_iff (o : BitVec 4) : (opOf o).usesLen = true ↔ o.toNat = 0x6 := by
  revert o; decide

/-- What the decoder accepts is a reserved operation, or has an assigned `OP` and a header with nothing wrong. -/
theorem decodeOp_eq_ok_cases {op : Op} {h : Word} {ops : List Word} {i : Instr} (e : decodeOp op h ops = .ok i) :
    i.IsReserved ∨ (op.isReserved = false ∧ headerError h = none) := by
  cases op with
  | reserved0 => exact .inl (.inl ⟨_, (noOperand_eq_ok e).2.symm⟩)
  | reserved7 => exact .inl (.inr (.inl ⟨_, (noOperand_eq_ok e).2.symm⟩))
  | reservedC => exact .inl (.inr (.inr ⟨_, (noOperand_eq_ok e).2.symm⟩))
  | setPixel | getPixel | fill | drawRect | drawGlyph | drawText | setup | commitDiff | commitFull | readStatus =>
    exact .inr ⟨rfl, (ifLegal_eq_ok e).1⟩

/-- A header with an assigned `OP` and nothing wrong, told from the word as a number. -/
theorem headerError_eq_none_toNat {h : Word} (hop : (opOf (opField h)).isReserved = false)
    (he : headerError h = none) :
    h.toNat / 2 ^ 28 ∉ [0x0, 0x7, 0xC, 0xD, 0xE, 0xF] ∧ h.toNat / 2 ^ 16 % 2 ^ 11 = 0 ∧
      (h.toNat / 2 ^ 27 % 2 = 1 → h.toNat / 2 ^ 28 ∈ [0x1, 0x3, 0x4, 0x5, 0x6]) ∧
      (h.toNat % 2 ^ 16 ≠ 0 → h.toNat / 2 ^ 28 = 0x6) := by
  obtain ⟨hrsv, hv, hlen⟩ := headerError_eq_none he
  rw [← opField_toNat, ← rsvField_toNat, ← lenField_toNat]
  refine ⟨fun hm => ?_, congrArg BitVec.toNat hrsv, fun hbit => ?_, fun hne => ?_⟩
  · rw [(opOf_isReserved_iff _).2 hm] at hop; cases hop
  · exact (opOf_usesV_iff _).1 (hv (by rw [vField_eq_decide, decide_eq_true hbit]))
  · exact (opOf_usesLen_iff _).1 (hlen fun h0 => hne (congrArg BitVec.toNat h0))

namespace Machine

theorem exec_of_isReserved {i : Instr} (hi : i.IsReserved) (s : State) : exec i s = .next (s.raise .illegal) := by
  obtain ⟨r, rfl⟩ | ⟨r, rfl⟩ | ⟨r, rfl⟩ := hi
  · exact exec_reserved0 s r
  · exact exec_reserved7 s r
  · exact exec_reservedC s r

/-- A step at a whole command that the decoder rejects, or reads as a reserved operation, consumes its words and raises
Illegal (R76, R211). -/
theorem step_of_illegal_stream {s : State} {h : Word} {ops rest : List Word} (hf : s.frames = [])
    (hs : s.decoder.words ++ s.port = h :: (ops ++ rest)) (hl : ops.length = operandWords h)
    (hi : ∀ i, decodeCommand h ops = .ok i → i.IsReserved) :
    step s = .next ((s.afterCommand rest).raise .illegal) := by
  rw [step_of_stream hf hs hl]
  cases hd : decodeCommand h ops with
  | error e => rfl
  | ok i => exact exec_of_isReserved (hi i hd) _

/-- Settles O7: of an illegal header the decoder accepts only a reserved `OP`, since an accepted header of an assigned
`OP` has nothing wrong (`headerError_eq_none_toNat`). -/
theorem illegalHeaderSetsIllAndConsumesItsLength : Obligations.IllegalHeaderSetsIllAndConsumesItsLength := by
  rintro s h ops rest op hf hs hl rfl hill
  have hlen : ops.length = operandWords h := by rw [commandLength] at hl; omega
  refine step_of_illegal_stream hf hs hlen fun i hd => (decodeOp_eq_ok_cases hd).resolve_right ?_
  rintro ⟨hop, he⟩
  obtain ⟨hnot, hrsv, hv, hlenUsed⟩ := headerError_eq_none_toNat hop he
  obtain hres | hr | ⟨hbit, hunused⟩ | ⟨hne, hop6⟩ := hill
  · exact hnot hres
  · exact hr hrsv
  · exact hunused (hv hbit)
  · exact hop6 (hlenUsed hne)

/-! ## A commit before SETUP (R175, R213) -/

/-- An operation that is no commit leaves ORDER. -/
theorem exec_order_of_not_commit {i : Instr} {s t : State} (h : exec i s = .next t) (hd : i ≠ .commitDiff)
    (hf : i ≠ .commitFull) : t.flag .order = s.flag .order := by
  obtain ⟨-, -, -, horder, -⟩ := exec_statusTable h
  simpa [hd, hf] using horder

/-- Settles O17: both commits are refused with INIT = 0, and the table of R25 gives ORDER to the commits alone. -/
theorem commitBeforeSetupSetsOrderOnly : Obligations.CommitBeforeSetupSetsOrderOnly :=
  ⟨fun s hi => ⟨exec_commitDiff_refused s hi, exec_commitFull_refused s hi⟩,
    fun _ _ _ h hd hf => exec_order_of_not_commit h hd hf⟩

/-! ## The sticky bits (R26, R217) -/

/-- No operation clears an error's bit. -/
theorem exec_keeps_errorBit {i : Instr} {s t : State} (h : exec i s = .next t) (e : ErrorCode)
    (hs : s.flag e.bit = true) : t.flag e.bit = true := by
  obtain ⟨-, -, hill, horder, -⟩ := exec_statusTable h
  cases e with
  | illegal => exact hill.2 (.inl hs)
  | orderError => exact horder.trans (by rw [show s.flag .order = true from hs, Bool.true_or])

/-- No step clears an error's bit: taking words, or a frame, leaves STATUS, and raising an error only sets a bit. -/
theorem step_keeps_errorBit {s t : State} (h : step s = .next t) (e : ErrorCode) (hs : s.flag e.bit = true) :
    t.flag e.bit = true := by
  obtain ⟨f, fs, i, -, -, hx⟩ | ⟨-, -, rfl⟩ | ⟨_, rest, -, -, rfl⟩ | ⟨i, rest, -, -, hx⟩ := step_cases h
  · exact exec_keeps_errorBit hx e hs
  · rw [State.flag_congr s.absorb_status, hs]
  · rw [State.flag_raise, State.flag_congr (s.afterCommand_status rest), hs, Bool.true_or]
  · exact exec_keeps_errorBit hx e hs

/-- A reset clears all four bits of STATUS (R240). -/
theorem State.flag_warmReset (s : State) (b : StatusBit) : s.warmReset.flag b = false :=
  BitVec.getLsbD_zero

/-- A run is safe exactly when neither error's bit is set (R217). -/
theorem State.safe_iff (s : State) : s.safe = true ↔ s.flag .ill = false ∧ s.flag .order = false := by
  rw [State.safe, State.faulted, Bool.not_eq_true', Bool.or_eq_false_iff]

/-- Settles O20: the step by `step_keeps_errorBit`; a reset leaves STATUS zero. -/
theorem errorBitsAreSticky : Obligations.ErrorBitsAreSticky :=
  ⟨fun _ _ h => ⟨step_keeps_errorBit h .illegal, step_keeps_errorBit h .orderError⟩,
    fun s => ⟨s.flag_warmReset .ill, s.flag_warmReset .order⟩, State.safe_iff⟩

end Machine

end Sys2Proof
end

/-! # The encoding (spec/30_encoding.md): the round trip both ways, the opcode table, command lengths, the
string form -/

section

namespace Sys2Proof

/-! ## Which operands fit (R73, R74, R80) -/

section
variable (x y x0 y0 x1 y1 : Int) (cp : Nat) (cps : List Nat) (v : Bool)

theorem wellFormed_setPixel_iff : (Instr.setPixel x y v).wellFormed = true ↔ coordOk x ∧ coordOk y := by
  simp only [Instr.wellFormed, Bool.and_eq_true, decide_eq_true_eq]

theorem wellFormed_getPixel_iff : (Instr.getPixel x y).wellFormed = true ↔ coordOk x ∧ coordOk y := by
  simp only [Instr.wellFormed, Bool.and_eq_true, decide_eq_true_eq]

theorem wellFormed_drawRect_iff :
    (Instr.drawRect x0 y0 x1 y1 v).wellFormed = true ↔ ((coordOk x0 ∧ coordOk y0) ∧ coordOk x1) ∧ coordOk y1 := by
  simp only [Instr.wellFormed, Bool.and_eq_true, decide_eq_true_eq]

theorem wellFormed_drawGlyph_iff :
    (Instr.drawGlyph x y cp v).wellFormed = true ↔ (coordOk x ∧ coordOk y) ∧ codepointOk cp := by
  simp only [Instr.wellFormed, Bool.and_eq_true, decide_eq_true_eq]

theorem wellFormed_drawText_iff :
    (Instr.drawText x y cps v).wellFormed = true ↔
      ((coordOk x ∧ coordOk y) ∧ cps.length ≤ 65535) ∧ ∀ cp ∈ cps, codepointOk cp := by
  simp only [Instr.wellFormed, Bool.and_eq_true, decide_eq_true_eq, List.all_eq_true, Config.maxText]
end

/-! ## Decoding an encoding -/

/-- A header of fields its operation uses passes the check of R78. -/
theorem ifLegal_header (op : BitVec 4) (v : Bool) (len : BitVec 16) (r : Except DecodeError Instr)
    (hv : v = false ∨ (opOf op).usesV = true) (hlen : len = 0 ∨ (opOf op).usesLen = true) :
    ifLegal (header op v len) r = r := by
  rw [ifLegal, headerError_header op v len hv hlen]

/-- An encoded header with all its operand words decodes as its operation does. -/
theorem decode_header {o : Op} {op : BitVec 4} {v : Bool} {len : BitVec 16} {ops : List Word} {i : Instr}
    (ho : opOf op = o) (hl : ops.length = o.operands len.toNat) (hd : decodeOp o (header op v len) ops = .ok i) :
    decode (.command (header op v len :: ops)) = .ok i :=
  decode_of_decodeCommand (by rw [operandWords_header, ho, hl]) (by rw [decodeCommand_header _ _ _ _ ho, hd])

/-- A header of a reserved `OP` alone decodes as its row of the table says (R78). -/
theorem decode_reserved {h : Word} {o : Op} {i : Instr} (ho : opOf (opField h) = o)
    (hl : o.operands (lenField h).toNat = 0) (hd : decodeOp o h [] = .ok i) : decode (.command [h]) = .ok i :=
  decode_of_decodeCommand (by rw [operandWords_eq ho, hl]; rfl) (by rw [decodeCommand, ho, hd])

theorem map_cpOfCP_encodeCP {cps : List Nat} (h : ∀ cp ∈ cps, codepointOk cp) :
    (cps.map encodeCP).map cpOfCP = cps := by
  rw [List.map_map]
  exact (List.map_congr_left fun cp hcp => cpOfCP_encodeCP (h cp hcp)).trans (List.map_id cps)

/-- Settles O1, operation by operation: the header's fields, then the operand words, read back as they were put. -/
theorem decodeOfEncodeIsTheInstruction : Obligations.DecodeOfEncodeIsTheInstruction := by
  intro i hw
  cases i with
  | setPixel x y v =>
    obtain ⟨hx, hy⟩ := (wellFormed_setPixel_iff x y v).1 hw
    refine decode_header (o := .setPixel) rfl rfl ?_
    rw [decodeOp, ifLegal_header _ _ _ _ (.inr rfl) (.inl rfl), oneOperand, xOfXY_encodeXY hx, yOfXY_encodeXY x hy,
      vField_header]
  | getPixel x y =>
    obtain ⟨hx, hy⟩ := (wellFormed_getPixel_iff x y).1 hw
    refine decode_header (o := .getPixel) rfl rfl ?_
    rw [decodeOp, ifLegal_header _ _ _ _ (.inl rfl) (.inl rfl), oneOperand, xOfXY_encodeXY hx, yOfXY_encodeXY x hy]
  | fill v =>
    refine decode_header (o := .fill) rfl rfl ?_
    rw [decodeOp, ifLegal_header _ _ _ _ (.inr rfl) (.inl rfl), noOperand, vField_header]
  | drawRect x0 y0 x1 y1 v =>
    obtain ⟨⟨⟨hx0, hy0⟩, hx1⟩, hy1⟩ := (wellFormed_drawRect_iff x0 y0 x1 y1 v).1 hw
    refine decode_header (o := .drawRect) rfl rfl ?_
    rw [decodeOp, ifLegal_header _ _ _ _ (.inr rfl) (.inl rfl), twoOperands, xOfXY_encodeXY hx0,
      yOfXY_encodeXY x0 hy0, xOfXY_encodeXY hx1, yOfXY_encodeXY x1 hy1, vField_header]
  | drawGlyph x y cp v =>
    obtain ⟨⟨hx, hy⟩, hcp⟩ := (wellFormed_drawGlyph_iff x y cp v).1 hw
    refine decode_header (o := .drawGlyph) rfl rfl ?_
    rw [decodeOp, ifLegal_header _ _ _ _ (.inr rfl) (.inl rfl), twoOperands, xOfXY_encodeXY hx, yOfXY_encodeXY x hy,
      cpOfCP_encodeCP hcp, vField_header]
  | drawText x y cps v =>
    obtain ⟨⟨⟨hx, hy⟩, hlen⟩, hcps⟩ := (wellFormed_drawText_iff x y cps v).1 hw
    have hlen' : (BitVec.ofNat 16 cps.length).toNat = cps.length := by rw [BitVec.toNat_ofNat]; omega
    refine decode_header (o := .drawText) rfl ?_ ?_
    · rw [hlen', List.length_cons, List.length_map, Op.operands, Nat.add_comm]
    · rw [decodeOp, ifLegal_header _ _ _ _ (.inr rfl) (.inr rfl), textOperands, lenField_header, hlen',
        if_pos (List.length_map _), xOfXY_encodeXY hx, yOfXY_encodeXY x hy, map_cpOfCP_encodeCP hcps, vField_header]
  | setup =>
    refine decode_header (o := .setup) rfl rfl ?_
    rw [decodeOp, ifLegal_header _ _ _ _ (.inl rfl) (.inl rfl), noOperand]
  | commitDiff =>
    refine decode_header (o := .commitDiff) rfl rfl ?_
    rw [decodeOp, ifLegal_header _ _ _ _ (.inl rfl) (.inl rfl), noOperand]
  | commitFull =>
    refine decode_header (o := .commitFull) rfl rfl ?_
    rw [decodeOp, ifLegal_header _ _ _ _ (.inl rfl) (.inl rfl), noOperand]
  | readStatus =>
    refine decode_header (o := .readStatus) rfl rfl ?_
    rw [decodeOp, ifLegal_header _ _ _ _ (.inl rfl) (.inl rfl), noOperand]
  | frameCmd v => rw [encode, decode, decodeFrame_frameOf]; rfl
  | frameData v => rw [encode, decode, decodeFrame_frameOf]; rfl
  | reserved0 r =>
    refine decode_reserved (o := .reserved0) (congrArg opOf (opField_reservedHeader 0x0 r)) rfl ?_
    rw [decodeOp, noOperand, low_reservedHeader]
  | reserved7 r =>
    refine decode_reserved (o := .reserved7) (congrArg opOf (opField_reservedHeader 0x7 r)) rfl ?_
    rw [decodeOp, noOperand, low_reservedHeader]
  | reservedC r =>
    refine decode_reserved (o := .reservedC) (opOf_reservedHeaderC r) rfl ?_
    rw [decodeOp, noOperand, low_reservedHeaderC]

/-! ## Encoding what was decoded -/

/-- The value of `OP` of each operation (R75), the least one for the reserved 0xC to 0xF. -/
def Op.code : Op → BitVec 4
  | .setPixel => 0x1
  | .getPixel => 0x2
  | .fill => 0x3
  | .drawRect => 0x4
  | .drawGlyph => 0x5
  | .drawText => 0x6
  | .reserved7 => 0x7
  | .setup => 0x8
  | .commitDiff => 0x9
  | .commitFull => 0xA
  | .readStatus => 0xB
  | .reserved0 => 0x0
  | .reservedC => 0xC

theorem opField_of_opOf {h : Word} {op : Op} (e : opOf (opField h) = op) (hc : op ≠ .reservedC) :
    opField h = op.code := by
  subst e; revert hc; generalize opField h = o; revert o; decide

theorem opField_of_opOf_reservedC {h : Word} (e : opOf (opField h) = .reservedC) : 12 ≤ opField h := by
  revert e; generalize opField h = o; revert o; decide

/-- A legal header of a known operation is the encoder's, made of the fields the operation uses (R78, R81). -/
theorem header_of_legal {h : Word} {op : Op} {o : BitVec 4} {v : Bool} {len : BitVec 16} (e : opOf (opField h) = op)
    (hc : op ≠ .reservedC) (hleg : headerError h = none) (ho : op.code = o) (hv : (op.usesV && vField h) = v)
    (hl : (if op.usesLen then lenField h else 0) = len) : header o v len = h := by
  obtain ⟨hr, hvUsed, hlenUsed⟩ := headerError_eq_none hleg
  rw [e] at hvUsed hlenUsed
  have hv' : (op.usesV && vField h) = vField h := by
    cases hvf : vField h
    · exact Bool.and_false _
    · rw [hvUsed hvf, Bool.and_true]
  have hlen' : (if op.usesLen then lenField h else 0) = lenField h := by
    by_cases hl : lenField h = 0
    · rw [hl, ite_self]
    · rw [if_pos (hlenUsed hl)]
  rw [← ho, ← hv, ← hl, hv', hlen', ← opField_of_opOf e hc, header_decoded h hr]

/-- The bits of a frame: the fixed ones by its kind, and the byte's two halves (R83). -/
theorem getLsbD_frameOf (rs : Bool) (v : Byte) {i : Nat} (hi : i < 24) :
    (frameOf rs v).getLsbD i =
      ((0xF80000#24 ||| ((BitVec.ofBool rs).setWidth 24 <<< 17)).getLsbD i ||
        (decide (12 ≤ i ∧ i < 16) && v.getLsbD (i - 8)) || (decide (4 ≤ i ∧ i < 8) && v.getLsbD (i - 4))) := by
  unfold frameOf
  rw [BitVec.getLsbD_or, BitVec.getLsbD_or]
  congr 1
  · congr 1
    by_cases h : 12 ≤ i ∧ i < 16
    · simp [h, hi, show ¬ i < 12 by omega, show i - 12 < 4 by omega, show 4 + (i - 12) = i - 8 by omega]
    · by_cases h12 : i < 12
      · simp [h12, show ¬ 12 ≤ i by omega]
      · simp [h, show ¬ i - 12 < 4 by omega]
  · by_cases h : 4 ≤ i ∧ i < 8
    · simp [h, hi, show ¬ i < 4 by omega, show i - 4 < 4 by omega]
    · by_cases h4 : i < 4
      · simp [h4, show ¬ 4 ≤ i by omega]
      · simp [h, show ¬ i - 4 < 4 by omega]

/-- A frame the decoder accepts is the frame of its kind and its byte (R83, R84): a bit under the mask is the kind's
fixed bit, and every other bit is one of the byte's. -/
theorem frameOf_decoded {f : FrameBits} {rs : Bool}
    (hf : f &&& 0xFF0F0F#24 = 0xF80000#24 ||| ((BitVec.ofBool rs).setWidth 24 <<< 17)) :
    frameOf rs (f.extractLsb' 12 4 ++ f.extractLsb' 4 4) = f := by
  have hmask : ∀ i < 24, (0xFF0F0F#24).getLsbD i = decide (¬ (12 ≤ i ∧ i < 16) ∧ ¬ (4 ≤ i ∧ i < 8)) := by decide
  apply BitVec.eq_of_getLsbD_eq
  intro i hi
  rw [getLsbD_frameOf rs _ hi, ← hf, BitVec.getLsbD_and, hmask i hi, BitVec.getLsbD_append, BitVec.getLsbD_append]
  by_cases h1 : 12 ≤ i ∧ i < 16
  · simp [h1, show ¬ i < 8 by omega, show ¬ i - 8 < 4 by omega, show i - 8 - 4 < 4 by omega,
      show 12 + (i - 8 - 4) = i by omega]
  · by_cases h2 : 4 ≤ i ∧ i < 8
    · simp [h1, h2, show i - 4 < 4 by omega, show 4 + (i - 4) = i by omega]
    · simp [h1, h2]

/-- Every frame the decoder accepts is the encoding of what it reads. -/
theorem encode_of_decodeFrame {f : FrameBits} {i : Instr} (h : decodeFrame f = some i) :
    i.wellFormed = true ∧ encode i = .frame f := by
  unfold decodeFrame at h
  split at h
  · injection h with h
    subst h
    exact ⟨rfl, congrArg Encoded.frame (frameOf_decoded (rs := false) ‹_›)⟩
  · split at h
    · injection h with h
      subst h
      exact ⟨rfl, congrArg Encoded.frame (frameOf_decoded (rs := true) ‹_›)⟩
    · cases h

/-- A whole command the decoder accepts is the encoding of what it reads, operation by operation: the header is the
encoder's (`header_of_legal`) and every operand word is the encoding of what it carries. -/
theorem encode_of_decodeOp {op : Op} {h : Word} {ops : List Word} {i : Instr} (e : opOf (opField h) = op)
    (hl : ops.length = operandWords h) (hd : decodeOp op h ops = .ok i) :
    i.wellFormed = true ∧ encode i = .command (h :: ops) := by
  cases op with
  | reserved0 =>
    obtain ⟨rfl, rfl⟩ := noOperand_eq_ok hd
    refine ⟨rfl, ?_⟩
    rw [encode, ← show opField h = 0x0 from opField_of_opOf e (by decide), reservedHeader_decoded]
  | reserved7 =>
    obtain ⟨rfl, rfl⟩ := noOperand_eq_ok hd
    refine ⟨rfl, ?_⟩
    rw [encode, ← show opField h = 0x7 from opField_of_opOf e (by decide), reservedHeader_decoded]
  | reservedC =>
    obtain ⟨rfl, rfl⟩ := noOperand_eq_ok hd
    refine ⟨rfl, ?_⟩
    rw [encode, reservedHeaderC_decoded h (opField_of_opOf_reservedC e)]
  | setPixel =>
    obtain ⟨hleg, hd⟩ := ifLegal_eq_ok hd
    obtain ⟨p, rfl, rfl⟩ := oneOperand_eq_ok hd
    refine ⟨(wellFormed_setPixel_iff _ _ _).2 ⟨coordOk_xOfXY p, coordOk_yOfXY p⟩, ?_⟩
    rw [encode, encodeXY_decoded]
    exact congrArg (fun h => Encoded.command [h, p]) (header_of_legal e (by decide) hleg rfl rfl rfl)
  | getPixel =>
    obtain ⟨hleg, hd⟩ := ifLegal_eq_ok hd
    obtain ⟨p, rfl, rfl⟩ := oneOperand_eq_ok hd
    refine ⟨(wellFormed_getPixel_iff _ _).2 ⟨coordOk_xOfXY p, coordOk_yOfXY p⟩, ?_⟩
    rw [encode, encodeXY_decoded]
    exact congrArg (fun h => Encoded.command [h, p]) (header_of_legal e (by decide) hleg rfl rfl rfl)
  | drawRect =>
    obtain ⟨hleg, hd⟩ := ifLegal_eq_ok hd
    obtain ⟨p, q, rfl, rfl⟩ := twoOperands_eq_ok hd
    refine ⟨(wellFormed_drawRect_iff _ _ _ _ _).2
      ⟨⟨⟨coordOk_xOfXY p, coordOk_yOfXY p⟩, coordOk_xOfXY q⟩, coordOk_yOfXY q⟩, ?_⟩
    rw [encode, encodeXY_decoded, encodeXY_decoded]
    exact congrArg (fun h => Encoded.command [h, p, q]) (header_of_legal e (by decide) hleg rfl rfl rfl)
  | drawGlyph =>
    obtain ⟨hleg, hd⟩ := ifLegal_eq_ok hd
    obtain ⟨p, c, rfl, rfl⟩ := twoOperands_eq_ok hd
    refine ⟨(wellFormed_drawGlyph_iff _ _ _ _).2 ⟨⟨coordOk_xOfXY p, coordOk_yOfXY p⟩, codepointOk_cpOfCP c⟩, ?_⟩
    rw [encode, encodeXY_decoded, encodeCP_decoded]
    exact congrArg (fun h => Encoded.command [h, p, c]) (header_of_legal e (by decide) hleg rfl rfl rfl)
  | drawText =>
    obtain ⟨hleg, hd⟩ := ifLegal_eq_ok hd
    obtain ⟨p, cs, rfl, hcs, rfl⟩ := textOperands_eq_ok hd
    have hlen : (cs.map cpOfCP).length = (lenField h).toNat := by rw [List.length_map, hcs]
    refine ⟨(wellFormed_drawText_iff _ _ _ _).2 ⟨⟨⟨coordOk_xOfXY p, coordOk_yOfXY p⟩, ?_⟩, ?_⟩, ?_⟩
    · have := (lenField h).isLt
      omega
    · intro cp hcp
      obtain ⟨c, -, rfl⟩ := List.mem_map.1 hcp
      exact codepointOk_cpOfCP c
    · rw [encode, encodeXY_decoded, hlen, BitVec.ofNat_toNat, BitVec.setWidth_eq, List.map_map,
        show encodeCP ∘ cpOfCP = id from funext encodeCP_decoded, List.map_id]
      exact congrArg (fun h => Encoded.command (h :: p :: cs)) (header_of_legal e (by decide) hleg rfl rfl rfl)
  | fill | setup | commitDiff | commitFull | readStatus =>
    obtain ⟨hleg, hd⟩ := ifLegal_eq_ok hd
    obtain ⟨rfl, rfl⟩ := noOperand_eq_ok hd
    exact ⟨rfl, congrArg (fun h => Encoded.command [h]) (header_of_legal e (by decide) hleg rfl rfl rfl)⟩

/-- Settles O2: a frame by `encode_of_decodeFrame`, a command by `encode_of_decodeOp`. -/
theorem encodeOfDecodeIsTheEncoding : Obligations.EncodeOfDecodeIsTheEncoding := by
  intro c i hd
  cases c with
  | command ws =>
    obtain ⟨h, ops, rfl, hl, hc⟩ := decode_command_eq_ok hd
    exact encode_of_decodeOp rfl hl hc
  | frame f =>
    cases hf : decodeFrame f with
    | none => simp [decode, hf] at hd
    | some j =>
      obtain rfl : j = i := by simpa [decode, hf] using hd
      exact encode_of_decodeFrame hf

/-- Settles O3: each word list is decoded as it stands. -/
theorem specWordsDecodeToTheirInstructions : Obligations.SpecWordsDecodeToTheirInstructions := by
  unfold Obligations.SpecWordsDecodeToTheirInstructions
  decide

/-! ## The length of a command (R77) -/

/-- How many operand words each value of `OP` takes. -/
theorem operands_opOf (o : BitVec 4) (n : Nat) :
    1 + (opOf o).operands n =
      if o.toNat = 1 ∨ o.toNat = 2 then 2 else if o.toNat = 4 ∨ o.toNat = 5 then 3
      else if o.toNat = 6 then 2 + n else 1 := by
  unfold opOf
  split <;> simp_all [Op.operands]
  omega

/-- Settles O4: the operand words by `OP` (`operands_opOf`), the fields told from the word as a number. -/
theorem commandLengthByOperation : Obligations.CommandLengthByOperation := by
  rintro h op len rfl rfl
  rw [commandLength, operandWords_eq rfl, operands_opOf, opField_toNat, lenField_toNat]

/-! ## The opcode table (R76, R78) -/

/-- A word is its four fields. -/
theorem word_eq_iff_fields (a b : Word) :
    a = b ↔ opField a = opField b ∧ vField a = vField b ∧ rsvField a = rsvField b ∧ lenField a = lenField b := by
  refine ⟨fun e => by subst e; exact ⟨rfl, rfl, rfl, rfl⟩, fun ⟨ho, hv, hr, hl⟩ => BitVec.eq_of_toNat_eq ?_⟩
  have ho' := congrArg BitVec.toNat ho
  have hr' := congrArg BitVec.toNat hr
  have hl' := congrArg BitVec.toNat hl
  rw [vField_eq_decide, vField_eq_decide, decide_eq_decide] at hv
  rw [opField_toNat, opField_toNat] at ho'
  rw [rsvField_toNat, rsvField_toNat] at hr'
  rw [lenField_toNat, lenField_toNat] at hl'
  omega

section
variable (a b : Word)
theorem opField_and : opField (a &&& b) = opField a &&& opField b := BitVec.extractLsb'_and
theorem rsvField_and : rsvField (a &&& b) = rsvField a &&& rsvField b := BitVec.extractLsb'_and
theorem lenField_and : lenField (a &&& b) = lenField a &&& lenField b := BitVec.extractLsb'_and
theorem vField_and : vField (a &&& b) = (vField a && vField b) := BitVec.getLsbD_and
end

/-- The fields of the rows' masks and patterns: a row fixes `OP` to its operation's values and, unless it is reserved,
`RSV` to zero, and `V` and `LEN` to zero where its operation does not use them. -/
theorem opcodeRow_fields : ∀ r ∈ opcodeRows,
    (∀ o, o &&& opField r.mask = opField r.pattern ↔ opOf o = r.op) ∧
    vField r.mask = (!r.op.isReserved && !r.op.usesV) ∧
    rsvField r.mask = (if r.op.isReserved then 0 else BitVec.allOnes 11) ∧
    lenField r.mask = (if r.op.isReserved || r.op.usesLen then 0 else BitVec.allOnes 16) ∧
    vField r.pattern = false ∧ rsvField r.pattern = 0 ∧ lenField r.pattern = 0 := by
  decide

/-- The rows tell the operations apart. -/
theorem opcodeRow_eq_of_op : ∀ r ∈ opcodeRows, ∀ r' ∈ opcodeRows, r.op = r'.op → r = r' := by decide

/-- Every operation has a row. -/
theorem exists_opcodeRow (op : Op) : ∃ r ∈ opcodeRows, r.op = op := by
  cases op <;> decide

theorem headerError_eq_none_iff (h : Word) :
    headerError h = none ↔ rsvField h = 0 ∧ (vField h = true → (opOf (opField h)).usesV = true) ∧
      (lenField h ≠ 0 → (opOf (opField h)).usesLen = true) := by
  refine ⟨headerError_eq_none, fun ⟨hr, hv, hlen⟩ => ?_⟩
  unfold headerError
  rw [if_neg (not_not.2 hr), if_neg, if_neg]
  · simpa using hlen
  · simpa using hv

/-- A field under a mask that asks for zero unless `c` is zero unless `c`. -/
theorem and_mask_eq_zero_iff {w : Nat} (x : BitVec w) (c : Bool) :
    x &&& (if c then 0 else BitVec.allOnes w) = 0 ↔ (x ≠ 0 → c = true) := by
  cases c <;> simp

theorem and_not_eq_false_iff (b c : Bool) : (b && !c) = false ↔ (b = true → c = true) := by
  cases b <;> cases c <;> decide

/-- A header matches a row when it has the row's operation and, unless the row is reserved, nothing is wrong with it. -/
theorem matches_opcodeRow_iff {r : OpcodeRow} (hr : r ∈ opcodeRows) (h : Word) :
    h &&& r.mask = r.pattern ↔
      opOf (opField h) = r.op ∧ (r.op.isReserved = true ∨ headerError h = none) := by
  obtain ⟨hop, hv, hrsv, hlen, hv0, hrsv0, hlen0⟩ := opcodeRow_fields r hr
  rw [word_eq_iff_fields, opField_and, vField_and, rsvField_and, lenField_and, hop, hv, hrsv, hlen, hv0, hrsv0, hlen0,
    headerError_eq_none_iff, ← Bool.not_or, and_not_eq_false_iff, and_mask_eq_zero_iff, and_mask_eq_zero_iff]
  refine and_congr_right fun e => ?_
  rw [e]
  cases r.op.isReserved
  · simp only [Bool.false_or, Bool.false_eq_true, imp_false, not_not, false_or]
    exact and_left_comm
  · simp

/-- The decoder accepts a header, with some operands, when its `OP` is reserved or nothing is wrong with it. -/
theorem header_accepted_iff (h : Word) :
    (∃ ops i, decodeCommand h ops = .ok i) ↔
      (opOf (opField h)).isReserved = true ∨ headerError h = none := by
  unfold decodeCommand
  generalize opOf (opField h) = op
  constructor
  · rintro ⟨ops, i, hd⟩
    cases op with
    | reserved0 | reserved7 | reservedC => exact .inl rfl
    | setPixel | getPixel | fill | drawRect | drawGlyph | drawText | setup | commitDiff | commitFull | readStatus =>
      exact .inr (ifLegal_eq_ok hd).1
  · intro hacc
    have hleg : op.isReserved = false → ∀ r, ifLegal h r = r := fun hres r => by
      rw [ifLegal, hacc.resolve_left (by rw [hres]; exact Bool.false_ne_true)]
    cases op with
    | reserved0 | reserved7 | reservedC => exact ⟨[], _, rfl⟩
    | fill | setup | commitDiff | commitFull | readStatus => exact ⟨[], _, hleg rfl _⟩
    | setPixel | getPixel => exact ⟨[0], _, hleg rfl _⟩
    | drawRect | drawGlyph => exact ⟨[0, 0], _, hleg rfl _⟩
    | drawText =>
      exact ⟨0 :: List.replicate (lenField h).toNat 0, _, (hleg rfl _).trans (if_pos (List.length_replicate ..))⟩

/-- Settles O5: both sides say that the `OP` is reserved or nothing is wrong with the header (`header_accepted_iff`,
`matches_opcodeRow_iff`), and the rows tell the operations apart. -/
theorem acceptedHeadersAreTheOpcodeTable : Obligations.AcceptedHeadersAreTheOpcodeTable := by
  refine ⟨fun h => ?_, fun h r hr r' hr' hm hm' => ?_⟩
  · rw [header_accepted_iff]
    constructor
    · intro hacc
      obtain ⟨r, hr, hop⟩ := exists_opcodeRow (opOf (opField h))
      exact ⟨r, hr, (matches_opcodeRow_iff hr h).2 ⟨hop.symm, by rwa [hop]⟩⟩
    · rintro ⟨r, hr, hm⟩
      obtain ⟨hop, hacc⟩ := (matches_opcodeRow_iff hr h).1 hm
      rwa [hop]
  · obtain ⟨hop, -⟩ := (matches_opcodeRow_iff hr h).1 hm
    obtain ⟨hop', -⟩ := (matches_opcodeRow_iff hr' h).1 hm'
    exact opcodeRow_eq_of_op r hr r' hr' (hop.symm.trans hop')

namespace Machine

/-! ## The string form of DRAW_TEXT (R87) -/

/-- The expansion of a string fits exactly when its text is not too long: every scalar value is a codepoint. -/
theorem wellFormed_expandText_iff {x y : Int} (hx : coordOk x) (hy : coordOk y) (s : String) (v : Bool) :
    (expandText x y s v).wellFormed = true ↔ s.length ≤ 65535 := by
  have hcps : ∀ cp ∈ s.toList.map Char.toNat, codepointOk cp := fun cp hcp => by
    obtain ⟨c, -, rfl⟩ := List.mem_map.1 hcp
    exact c.val.toBitVec.isLt
  rw [expandText, wellFormed_drawText_iff, List.length_map, String.length_toList]
  exact ⟨fun h => h.1.2, fun h => ⟨⟨⟨hx, hy⟩, h⟩, hcps⟩⟩

/-- Settles O6: the words of a text that fits are its encoding, which decodes back to it (O1). -/
theorem stringTextIsItsCodepoints : Obligations.StringTextIsItsCodepoints := by
  intro x y s v hx hy
  have hwf := wellFormed_expandText_iff hx hy s v
  refine ⟨fun hlen => ⟨_, if_pos (hwf.2 hlen), ?_⟩, fun hlen => if_neg fun h => ?_⟩
  · exact decodeOfEncodeIsTheInstruction (expandText x y s v) (hwf.2 hlen)
  · exact absurd (hwf.1 h) (by omega)

end Machine

end Sys2Proof
end

/-! # The step (spec/10_state.md section 7, spec/30_encoding.md section 5): what every operation keeps, what it sends,
and how the command stream is taken -/

section

namespace Sys2Proof.Machine

/-! ## What no operation touches (R36) -/

section
variable (s : State) (ps : List (Int × Int)) (v : Bool)

@[simp] theorem State.paint_data : (s.paint ps v).data = s.data := by rw [State.paint_eq]
@[simp] theorem State.paint_clk : (s.paint ps v).clk = s.clk := by rw [State.paint_eq]
@[simp] theorem State.paint_decoder : (s.paint ps v).decoder = s.decoder := by rw [State.paint_eq]
@[simp] theorem State.paint_port : (s.paint ps v).port = s.port := by rw [State.paint_eq]
@[simp] theorem State.paint_wire : (s.paint ps v).wire = s.wire := by rw [State.paint_eq]
@[simp] theorem State.paint_frames : (s.paint ps v).frames = s.frames := by rw [State.paint_eq]
@[simp] theorem State.paint_draw : (s.paint ps v).draw = s.draw := by rw [State.paint_eq]
end

/-- No operation moves the decoder's position or the port, or touches the model's own fields (R36). -/
theorem exec_keeps_stream {i : Instr} {s t : State} (h : exec i s = .next t) :
    t.decoder = s.decoder ∧ t.port = s.port ∧ t.frames = s.frames ∧ t.draw = s.draw := by
  obtain ⟨u, hu, hcases⟩ := exec_cases i s
  obtain rfl := exec_unique h hu
  obtain ⟨ps, v, rfl⟩ | ⟨v, -, rfl⟩ | ⟨w, rfl, -⟩ | ⟨e, rfl⟩ | ⟨-, rfl⟩ | ⟨ws, -, -, rfl⟩ | ⟨rs, v, -, rfl⟩ :=
    hcases <;> simp

/-- Every operation leaves the reset's draws what they were. -/
theorem exec_draw {i : Instr} {s t : State} (h : exec i s = .next t) : t.draw = s.draw := by
  obtain ⟨-, -, -, hdraw⟩ := exec_keeps_stream h
  exact hdraw

/-- Settles O13: every operation completes (`exec_total`) and keeps the stream. -/
theorem noOperationMovesTheCommandStream : Obligations.NoOperationMovesTheCommandStream := by
  intro i s
  obtain ⟨t, ht⟩ := exec_total i s
  exact ⟨t, ht, exec_keeps_stream ht⟩

/-- No operation looks at the port. -/
theorem exec_withPort {i : Instr} {s t : State} (h : exec i s = .next t) (p : List Word) :
    exec i { s with port := p } = .next { t with port := p } := by
  cases instrKind i with
  | paints ps v _ hx =>
    have hfb := State.paint_fb_congr (s := s) (t := { s with port := p }) rfl rfl ps v
    rw [exec_unique h (hx s), hx, State.paint_eq { s with port := p }, hfb, State.paint_eq s]
  | fill v => rw [exec_unique h (exec_fill s v)]; rfl
  | getPixel x y => rw [exec_unique h (exec_getPixel s x y)]; rfl
  | readStatus => rw [exec_unique h (exec_readStatus s)]; rfl
  | setup => rw [exec_unique h (exec_setup s)]; rfl
  | commitDiff =>
    obtain ⟨hi, rfl⟩ | ⟨hi, rfl⟩ := exec_commitDiff_cases h
    · exact exec_commitDiff { s with port := p } hi
    · exact exec_commitDiff_refused { s with port := p } hi
  | commitFull =>
    obtain ⟨hi, rfl⟩ | ⟨hi, rfl⟩ := exec_commitFull_cases h
    · exact exec_commitFull { s with port := p } hi
    · exact exec_commitFull_refused { s with port := p } hi
  | sendsFrame rs v _ hx => rw [exec_unique h (hx s), hx]; rfl
  | reserved _ hx => rw [exec_unique h (hx s), hx]; rfl

/-! ## What a step sends (R166, R253) -/

/-- The events of one item of the trace: a whole frame, or a wait. -/
def itemEvents : (Bool × Byte) ⊕ Nat → List WireEvent
  | .inl (rs, v) => frameEvents rs v
  | .inr n => [.wait n]

/-- From `s` to `t` the trace has grown by whole frames and waits, by no more events than 512 word transfers have. -/
def WireGrows (s t : State) : Prop :=
  ∃ items : List ((Bool × Byte) ⊕ Nat),
    t.wire = s.wire ++ items.flatMap itemEvents ∧ (items.flatMap itemEvents).length ≤ 49152

theorem wireGrows_of_wire_eq {s t : State} (h : t.wire = s.wire) : WireGrows s t :=
  ⟨[], by rw [h, List.flatMap_nil, List.append_nil], by rw [List.flatMap_nil]; exact Nat.zero_le _⟩

/-- The four frames of a word transfer (R172). -/
def wordItems (k : Config.CommandBytes) (s : State) (w : Nat) : List ((Bool × Byte) ⊕ Nat) :=
  [.inl (false, addrByte k (addrOf (wordRow w) (wordCol w)).1),
   .inl (false, addrByte k (addrOf (wordRow w) (wordCol w)).2),
   .inl (true, s.fbByte (2 * w)), .inl (true, s.fbByte (2 * w + 1))]

theorem sendWord_eq_items (k : Config.CommandBytes) (s : State) (w : Nat) :
    sendWord k s w = (wordItems k s w).flatMap itemEvents := by
  simp [sendWord, wordItems, itemEvents, writeCmd, writeData]

/-- A commit of at most 512 words. -/
theorem wireGrows_commit (k : Config.CommandBytes) (s : State) (ws : List Nat) (hws : ws.length ≤ 512) :
    WireGrows s (s.commit k ws) := by
  have hitems : ws.flatMap (sendWord k s) = (ws.flatMap (wordItems k s)).flatMap itemEvents := by
    rw [List.flatMap_assoc]
    exact List.flatMap_congr fun w _ => sendWord_eq_items k s w
  refine ⟨ws.flatMap (wordItems k s), ?_, ?_⟩
  · rw [State.commit_wire, hitems]
  · rw [← hitems, sendWords_length]
    omega

theorem traverse_length : traverse.length = 512 := by rw [traverse_eq, List.length_range]

theorem setupEvents_eq_items (k : Config.CommandBytes) (n : Nat) :
    setupEvents k n =
      [Sum.inl (false, k.basic8), .inl (false, k.clear), .inr n, .inl (false, k.ext), .inl (false, k.gfxOn)].flatMap
        itemEvents := by
  simp [setupEvents, itemEvents, writeCmd]

theorem setupEvents_length (k : Config.CommandBytes) (n : Nat) : (setupEvents k n).length = 97 := by
  simp [setupEvents, writeCmd]

/-- Every operation sends whole frames and waits. -/
theorem exec_wireGrows {i : Instr} {s t : State} (h : exec i s = .next t) : WireGrows s t := by
  cases instrKind i with
  | paints ps v _ hx => rw [exec_unique h (hx s)]; exact wireGrows_of_wire_eq (State.paint_wire s ps v)
  | fill v => rw [exec_unique h (exec_fill s v)]; exact wireGrows_of_wire_eq rfl
  | getPixel x y => rw [exec_unique h (exec_getPixel s x y)]; exact wireGrows_of_wire_eq rfl
  | readStatus => rw [exec_unique h (exec_readStatus s)]; exact wireGrows_of_wire_eq rfl
  | setup =>
    rw [exec_unique h (exec_setup s)]
    refine ⟨_, congrArg (s.wire ++ ·) (setupEvents_eq_items _ _), ?_⟩
    rw [← setupEvents_eq_items, setupEvents_length]
    omega
  | commitDiff =>
    obtain ⟨-, rfl⟩ | ⟨-, rfl⟩ := exec_commitDiff_cases h
    · exact wireGrows_commit _ s _ ((List.length_filter_le _ _).trans traverse_length.le)
    · exact wireGrows_of_wire_eq rfl
  | commitFull =>
    obtain ⟨-, rfl⟩ | ⟨-, rfl⟩ := exec_commitFull_cases h
    · exact wireGrows_commit _ s _ traverse_length.le
    · exact wireGrows_of_wire_eq rfl
  | sendsFrame rs v _ hx =>
    rw [exec_unique h (hx s)]
    exact ⟨[.inl (rs, v)], by simp [itemEvents], by simp [itemEvents]⟩
  | reserved _ hx => rw [exec_unique h (hx s)]; exact wireGrows_of_wire_eq rfl

/-- Every step sends whole frames and waits. -/
theorem step_wireGrows {s t : State} (h : step s = .next t) : WireGrows s t := by
  obtain ⟨f, fs, i, -, -, hx⟩ | ⟨-, -, rfl⟩ | ⟨_, rest, -, -, rfl⟩ | ⟨i, rest, -, -, hx⟩ := step_cases h
  · exact (exec_wireGrows hx :)
  · exact wireGrows_of_wire_eq s.absorb_wire
  · exact wireGrows_of_wire_eq rfl
  · exact (exec_wireGrows hx :)

/-- Settles O42, by `step_wireGrows`. -/
theorem stepsSendWholeFrames : Obligations.StepsSendWholeFrames := by
  intro s t h
  obtain ⟨items, hw, -⟩ := step_wireGrows h
  exact ⟨items, hw⟩

theorem step_command {s : State} {i : Instr} {rest : List Word} (hf : s.frames = [])
    (hc : s.fetch = .command i rest) : step s = exec i (s.afterCommand rest) := by
  simp [step, hf, hc]

/-- With no frame put before the serializer every step answers a next state (R215). -/
theorem step_total {s : State} (hf : s.frames = []) : ∃ t, step s = .next t := by
  cases hfetch : s.fetch with
  | waiting => exact ⟨_, step_waiting hf hfetch⟩
  | illegal e rest => exact ⟨_, step_illegal hf hfetch⟩
  | command i rest =>
    obtain ⟨t, ht⟩ := exec_total i (s.afterCommand rest)
    exact ⟨t, (step_command hf hfetch).trans ht⟩

/-- Settles O11: `step_total`, and the bound of `step_wireGrows`. -/
theorem everyStepCompletes : Obligations.EveryStepCompletes := by
  intro s hf
  obtain ⟨t, ht⟩ := step_total hf
  obtain ⟨items, hw, hlen⟩ := step_wireGrows ht
  exact ⟨t, ht, by rw [hw, List.length_append]; omega⟩

/-! ## Sequences of operations (R253) -/

theorem wire_isPrefix_of_wireGrows {s t : State} (h : WireGrows s t) : s.wire <+: t.wire := by
  obtain ⟨items, hw, -⟩ := h
  exact ⟨_, hw.symm⟩

/-- Every operation only adds to the results. -/
theorem exec_results_isPrefix {i : Instr} {s t : State} (h : exec i s = .next t) : s.results <+: t.results := by
  by_cases hi : (∃ x y, i = .getPixel x y) ∨ i = .readStatus
  · obtain ⟨w, hw⟩ := exec_results_of_read h hi
    exact ⟨[w], hw.symm⟩
  · obtain ⟨hg, hr⟩ := not_or.1 hi
    rw [exec_results_of_not_read h (fun x y e => hg ⟨x, y, e⟩) hr]

/-- Settles O15, by induction on the sequence. -/
theorem anySequenceOfOperationsCompletes : Obligations.AnySequenceOfOperationsCompletes := by
  intro is
  induction is with
  | nil => exact fun s => ⟨s, rfl, List.prefix_rfl, List.prefix_rfl⟩
  | cons i is ih =>
    intro s
    obtain ⟨t, ht⟩ := exec_total i s
    obtain ⟨u, hu, hwire, hres⟩ := ih t
    exact ⟨u, (execAll_cons_next ht).trans hu, (wire_isPrefix_of_wireGrows (exec_wireGrows ht)).trans hwire,
      (exec_results_isPrefix ht).trans hres⟩

/-- Settles O53: the cut trace lies between the old one and the command's (`step_wireGrows`); the state is a reset's. -/
theorem resetInsideACommandAbandonsIt : Obligations.ResetInsideACommandAbandonsIt := by
  intro s u k tr h
  unfold State.abandon at h
  split at h
  · rename_i t ht
    injection h with h
    obtain ⟨rfl, rfl⟩ := Prod.mk.injEq .. ▸ h
    obtain ⟨items, hw, -⟩ := step_wireGrows ht
    refine ⟨t, ht, ?_, List.take_prefix _ _, List.length_take_le _ _, rfl, rfl, rfl, rfl, rfl, rfl, rfl, rfl, rfl⟩
    rw [hw, List.take_length_add_append]
    exact List.prefix_append _ _
  · cases h
  · cases h

/-! ## The command stream (R29, R76) -/

theorem step_of_frame {s : State} {f : FrameBits} {fs : List FrameBits} {i : Instr} (hf : s.frames = f :: fs)
    (hd : decodeFrame f = some i) : step s = exec i { s with frames := fs } := by
  simp [step, hf, hd]

/-- A step at a whole encoded command runs its operation. -/
theorem step_of_command {s : State} {i : Instr} {ws rest : List Word} (hf : s.frames = [])
    (hd : decode (.command ws) = .ok i) (hs : s.decoder.words ++ s.port = ws ++ rest) :
    step s = exec i (s.afterCommand rest) := by
  obtain ⟨h, ops, rfl, hl, hc⟩ := decode_command_eq_ok hd
  rw [step_of_stream hf hs hl, hc]

/-- Settles O8, by `step_of_command` and `step_of_frame`. -/
theorem stepRunsTheDecodedInstruction : Obligations.StepRunsTheDecodedInstruction := by
  refine ⟨fun s i ws rest hf hd hs => step_of_command hf hd hs, fun s i f fs hd hf => ?_⟩
  cases hfr : decodeFrame f with
  | none => simp [decode, hfr] at hd
  | some j =>
    obtain rfl : j = i := by simpa [decode, hfr] using hd
    exact step_of_frame hf hfr

/-- Settles O12: the pattern fails both tests of `decodeFrame`. -/
theorem patternThatIsNoFrameFaults : Obligations.PatternThatIsNoFrameFaults := by
  intro s f fs hf hcmd hdata
  have hd : decodeFrame f = none := by rw [decodeFrame, if_neg hcmd, if_neg hdata]
  simp [step, hf, hd]

/-- With no whole command there the step waits (R29, R225). -/
theorem step_of_incomplete {s : State} (hf : s.frames = [])
    (hs : s.decoder.words ++ s.port = [] ∨
      ∃ h ops, s.decoder.words ++ s.port = h :: ops ∧ ops.length + 1 < commandLength h) :
    step s = .next s.absorb := by
  refine step_waiting hf ((decodeStream_waiting_iff _).2 (hs.imp_right ?_))
  rintro ⟨h, ops, e, hl⟩
  exact ⟨h, ops, e, by rw [commandLength] at hl; omega⟩

/-- Settles O9: a step at an incomplete command absorbs the words at hand, and one at a whole command, legal or not,
leaves what `afterCommand` leaves, which no operation moves (`exec_keeps_stream`). -/
theorem decoderPositionFollowsTheStream : Obligations.DecoderPositionFollowsTheStream := by
  refine fun s hf => ⟨fun hs => ?_, fun h ops hs hl => ?_, fun h ops rest hs hl => ?_⟩
  · rw [step_of_incomplete hf (.inl hs), State.absorb_of_nil hs]
  · rw [step_of_incomplete hf (.inr ⟨h, ops, hs, hl⟩), State.absorb_of_cons hs]
  · rw [step_of_stream hf hs (by rw [commandLength] at hl; omega)]
    cases decodeCommand h ops with
    | error e => exact ⟨_, rfl, rfl, rfl⟩
    | ok i =>
      obtain ⟨t, ht⟩ := exec_total i (s.afterCommand rest)
      obtain ⟨hdec, hport, -, -⟩ := exec_keeps_stream ht
      exact ⟨t, ht, hdec, hport⟩

/-- A step looks at the words at hand and not at how they are split between the decoder's position and the port. -/
theorem step_of_same_stream {s : State} (hf : s.frames = []) {d : DecoderPos} {p : List Word}
    (hs : d.words ++ p = s.decoder.words ++ s.port) : step { s with decoder := d, port := p } = step s := by
  have hfetch : State.fetch { s with decoder := d, port := p } = s.fetch := congrArg decodeStream hs
  cases hw : s.fetch with
  | waiting =>
    rw [step_waiting hf hw, step_waiting (s := { s with decoder := d, port := p }) hf (hfetch.trans hw)]
    unfold State.absorb
    simp only [hs]
  | illegal e rest =>
    rw [step_illegal hf hw, step_illegal (s := { s with decoder := d, port := p }) hf (hfetch.trans hw)]
    rfl
  | command i rest =>
    rw [step_command hf hw, step_command (s := { s with decoder := d, port := p }) hf (hfetch.trans hw)]
    rfl

/-- Waiting moves every word at hand into the decoder's position and nothing else. -/
theorem State.absorb_eq (s : State) : s.absorb = { s with decoder := s.absorb.decoder, port := [] } := by
  unfold State.absorb
  split <;> rfl

/-- Settles O10: after the waiting step the words at hand are the same, split in another place. -/
theorem arrivalInPiecesChangesNothing : Obligations.ArrivalInPiecesChangesNothing := by
  intro s t ws us hf hinc h
  have hinc' : (s.hostSends ws).decoder.words ++ (s.hostSends ws).port = s.decoder.words ++ s.port ++ ws := by
    rw [State.hostSends_decoder, State.hostSends_port, List.append_assoc]
  rw [← hinc'] at hinc
  rw [step_of_incomplete (s := s.hostSends ws) hf hinc] at h
  injection h with h
  have hwords := State.absorb_decoder_words (s.hostSends ws)
  have ht : t.hostSends us =
      { s.hostSends (ws ++ us) with decoder := (s.hostSends ws).absorb.decoder, port := us } := by
    rw [← h, State.absorb_eq]
    rfl
  rw [ht]
  refine step_of_same_stream (s := s.hostSends (ws ++ us)) hf ?_
  rw [hwords, hinc', State.hostSends_decoder, State.hostSends_port]
  simp only [List.append_assoc]

/-- A run goes on from the state its first step answers. -/
theorem run_succ_of_step {s t : State} (h : step s = .next t) (k : Nat) :
    Host.Core.run Sys2Proof.core (k + 1) s = Host.Core.run Sys2Proof.core k t := by
  have hcore : Sys2Proof.core.step s = .next t := h
  simp only [Host.Core.run, hcore]

/-- Settles O14, by induction on the operations: a step runs the first one with the others' words on the port, which it
neither moves nor looks at (`exec_keeps_stream`, `exec_withPort`). -/
theorem commandsRunOneAtATimeInOrder : Obligations.CommandsRunOneAtATimeInOrder := by
  intro is
  induction is with
  | nil =>
    intro s _ _ _ hp
    rw [List.flatMap_nil] at hp
    rw [← hp]
    rfl
  | cons i is ih =>
    intro s his hf hdec hp
    obtain ⟨hwf, ws, hws⟩ := his i List.mem_cons_self
    have hdecode : decode (.command ws) = .ok i := hws ▸ decodeOfEncodeIsTheInstruction i hwf
    have hstream : s.decoder.words ++ s.port = ws ++ is.flatMap commandWords := by
      rw [hdec, hp, List.flatMap_cons, commandWords, hws]
      rfl
    have hrest : s.afterCommand (is.flatMap commandWords) = { s with port := is.flatMap commandWords } := by
      rw [State.afterCommand, ← hdec]
    have hstep := step_of_command hf hdecode hstream
    rw [hrest] at hstep
    obtain ⟨t, ht⟩ := exec_total i { s with port := is.flatMap commandWords }
    obtain ⟨hdec', hport', hframes', -⟩ := exec_keeps_stream ht
    have hempty : exec i { s with port := [] } = .next { t with port := [] } := exec_withPort ht []
    rw [List.length_cons, run_succ_of_step (hstep.trans ht),
      ih t (fun j hj => his j (List.mem_cons_of_mem _ hj)) (hframes'.trans hf) (hdec'.trans hdec) hport',
      execAll_cons_next hempty]

/-! ## Errors and READ_STATUS, one operation or one step -/

/-- Settles O16: each reserved row raises Illegal (`exec_of_isReserved`), whose mask is bit 2. -/
theorem reservedOperationsSetIll : Obligations.ReservedOperationsSetIll := fun s a b c =>
  ⟨exec_of_isReserved (.inl ⟨a, rfl⟩) s, exec_of_isReserved (.inr (.inl ⟨b, rfl⟩)) s,
    exec_of_isReserved (.inr (.inr ⟨c, rfl⟩)) s⟩

/-- Settles O21: the equation of READ_STATUS, `pushResult` written out. -/
theorem readStatusAppendsStatus : Obligations.ReadStatusAppendsStatus := exec_readStatus

/-- A commit leaves ILL, and any other operation leaves ORDER. -/
theorem exec_changes_one_errorBit {i : Instr} {s t : State} (h : exec i s = .next t) :
    t.flag .ill = s.flag .ill ∨ t.flag .order = s.flag .order := by
  by_cases hc : i = .commitDiff ∨ i = .commitFull
  · obtain ⟨-, -, hill, -, -⟩ := exec_statusTable h
    refine .inl (Bool.eq_iff_iff.2 (hill.trans (or_iff_left ?_)))
    obtain rfl | rfl := hc <;> simp
  · obtain ⟨hd, hf⟩ := not_or.1 hc
    exact .inr (exec_order_of_not_commit h hd hf)

theorem step_changes_one_errorBit {s t : State} (h : step s = .next t) :
    t.flag .ill = s.flag .ill ∨ t.flag .order = s.flag .order := by
  obtain ⟨f, fs, i, -, -, hx⟩ | ⟨-, -, rfl⟩ | ⟨_, rest, -, -, rfl⟩ | ⟨i, rest, -, -, hx⟩ := step_cases h
  · exact (exec_changes_one_errorBit hx :)
  · exact .inl (State.flag_congr s.absorb_status _)
  · exact .inr ((State.flag_raise _ _ _).trans (Bool.or_false _))
  · exact (exec_changes_one_errorBit hx :)

/-- Settles O18: the step by `step_changes_one_errorBit`; an illegal commit header is one word, and O7 says what it
sets. -/
theorem oneCommandRaisesAtMostOneError : Obligations.OneCommandRaisesAtMostOneError := by
  refine ⟨fun s t h => step_changes_one_errorBit h, fun s h rest hf hs hop hbits => ?_⟩
  have hlen : ([] : List Word).length + 1 = commandLength h := by
    rw [commandLengthByOperation h _ _ rfl rfl, if_neg (by omega), if_neg (by omega), if_neg (by omega)]
    rfl
  have hill : h.toNat / 2 ^ 28 ∈ [0x0, 0x7, 0xC, 0xD, 0xE, 0xF] ∨ h.toNat / 2 ^ 16 % 2 ^ 11 ≠ 0 ∨
      (h.toNat / 2 ^ 27 % 2 = 1 ∧ h.toNat / 2 ^ 28 ∉ [0x1, 0x3, 0x4, 0x5, 0x6]) ∨
      (h.toNat % 2 ^ 16 ≠ 0 ∧ h.toNat / 2 ^ 28 ≠ 0x6) := by
    simp only [List.mem_cons, List.not_mem_nil, or_false]
    omega
  refine ⟨_, illegalHeaderSetsIllAndConsumesItsLength s h [] rest _ hf hs hlen rfl hill, ?_, ?_⟩
  · simp
  · simp

end Sys2Proof.Machine
end

/-! # SETUP and the commits (spec/42_protocol.md): what they send and what they leave -/

section

namespace Sys2Proof.Machine

/-! ## SETUP (R170) -/

/-- Settles O43: the setup sequence is emitted whole and leaves both lines low; the wait is `CLEAR_WAIT`. -/
theorem setupSendsTheInitializationSequence : Obligations.SetupSendsTheInitializationSequence := by
  refine fun s => ⟨Config.clearWait, Nat.le_add_right _ _, ?_⟩
  rw [exec_setup, State.emit, dataAfter_setup, clkAfter_setup]
  rfl

/-! ## The controller addresses (R51, R52) -/

/-- The controller address of a word, bank by bank. -/
theorem addrOf_word (w : Nat) :
    addrOf (wordRow w) (wordCol w) = if w < 256 then (w / 8, w % 8) else (w / 8 - 32, w % 8 + 8) := by
  simp only [addrOf, wordRow, wordCol, Config.rowWords, Config.bankRows, Config.bankColOffset]
  exact if_congr (by omega) rfl rfl

theorem addrOf_word_eq_iff (w ra ca : Nat) :
    addrOf (wordRow w) (wordCol w) = (ra, ca) ↔
      (w < 256 ∧ w / 8 = ra ∧ w % 8 = ca) ∨ (¬ w < 256 ∧ w / 8 - 32 = ra ∧ w % 8 + 8 = ca) := by
  rw [addrOf_word]
  by_cases h : w < 256 <;> simp [h]

/-- Settles O44: the word at `(ra, ca)` is `8 ra + ca` in the first bank and `256 + 8 ra + (ca - 8)` in the second. -/
theorem controllerAddressesAreABijection : Obligations.ControllerAddressesAreABijection := by
  refine ⟨fun y c => rfl, fun ra ca hra hca => ⟨?_, fun w _ e => ?_⟩⟩
  · refine ⟨if ca < 8 then 8 * ra + ca else 256 + 8 * ra + (ca - 8), ⟨?_, ?_⟩, fun w ⟨_, e⟩ => ?_⟩
    · split <;> omega
    · refine (addrOf_word_eq_iff _ ra ca).2 ?_
      split <;> omega
    · have := (addrOf_word_eq_iff w ra ca).1 e
      split <;> omega
  · have := (addrOf_word_eq_iff w ra ca).1 e
    omega

/-! ## A commit, whole (R172, R174, R176) -/

/-- A word transfer with its addresses written out. -/
theorem sendWord_eq (k : Config.CommandBytes) (s : State) (w : Nat) :
    sendWord k s w =
      frameEvents false (k.addr + BitVec.ofNat 8 (if w < 256 then w / 8 else w / 8 - 32)) ++
        frameEvents false (k.addr + BitVec.ofNat 8 (if w < 256 then w % 8 else w % 8 + 8)) ++
        frameEvents true (s.fbByte (2 * w)) ++ frameEvents true (s.fbByte (2 * w + 1)) := by
  rw [sendWord, addrOf_word, apply_ite Prod.fst, apply_ite Prod.snd]
  rfl

/-- What a commit changes: CB, the trace, the lines, and SYNCED. -/
theorem State.commit_eq (k : Config.CommandBytes) (ws : List Nat) (s : State) :
    s.commit k ws =
      { s with
        cb := (s.commit k ws).cb
        wire := s.wire ++ ws.flatMap (sendWord k s)
        data := s.data && decide (ws = [])
        clk := s.clk && decide (ws = [])
        status := s.status ||| 0x00000002#32 } := by
  obtain ⟨hdata, hclk⟩ := lines_after_sendWords k s ws s.data s.clk
  rw [← hdata, ← hclk]
  rfl

/-- Settles O45: the traversal is the words 0 to 511, so something is sent and the lines end low. -/
theorem commitFullSendsEveryWord : Obligations.CommitFullSendsEveryWord := by
  refine fun s hi => ⟨_, exec_commitFull s hi, ?_, fun i h => State.cbByte_commit _ _ s h⟩
  have hne : traverse ≠ [] := List.ne_nil_of_length_pos (by rw [traverse_length]; omega)
  refine (State.commit_eq _ _ s).trans ?_
  rw [decide_eq_false hne, Bool.and_false, Bool.and_false, traverse_eq, funext (sendWord_eq Config.commandBytes s)]

theorem State.differs_iff (s : State) (w : Nat) :
    s.differs w = true ↔ s.fbByte (2 * w) ≠ s.cbByte (2 * w) ∨ s.fbByte (2 * w + 1) ≠ s.cbByte (2 * w + 1) := by
  rw [State.differs, Bool.or_eq_true, bne_iff_ne, bne_iff_ne]

/-- Settles O46: the words sent are the ones the traversal's filter keeps. -/
theorem commitDiffSendsTheDifferingWords : Obligations.CommitDiffSendsTheDifferingWords := by
  intro s hi
  have hws : (traverse.filter fun w => !s.flag .synced || s.differs w) =
      (List.range 512).filter (fun w => s.status.getLsbD 1 = false ∨
        s.fbByte (2 * w) ≠ s.cbByte (2 * w) ∨ s.fbByte (2 * w + 1) ≠ s.cbByte (2 * w + 1)) := by
    rw [traverse_eq]
    refine List.filter_congr fun w _ => Bool.eq_iff_iff.2 ?_
    rw [Bool.or_eq_true, Bool.not_eq_true', State.differs_iff, decide_eq_true_iff]
    rfl
  refine ⟨_, _, exec_commitDiff s hi, rfl, ?_, fun i h => State.cbByte_commit _ _ s h⟩
  rw [← hws, ← funext (sendWord_eq Config.commandBytes s)]
  exact State.commit_eq _ _ s

/-! ## Commits compared (R174, R178, R179, R252) -/

/-- With no valid last-sent copy the two commits are one operation. -/
theorem exec_commitDiff_eq_commitFull {s : State} (hs : s.flag .synced = false) :
    exec .commitDiff s = exec .commitFull s := by
  cases hi : s.flag .init
  · rw [exec_commitDiff_refused s hi, exec_commitFull_refused s hi]
  · rw [exec_commitDiff_unsynced hi hs, exec_commitFull s hi]

/-- SETUP clears SYNCED. -/
theorem exec_setup_synced {s t : State} (h : exec .setup s = .next t) : t.flag .synced = false := by
  obtain ⟨-, hsynced, -⟩ := exec_statusTable h
  rw [hsynced, if_pos rfl]

/-- Settles O47, by `exec_commitDiff_eq_commitFull`. -/
theorem unsyncedCommitDiffIsCommitFull : Obligations.UnsyncedCommitDiffIsCommitFull :=
  ⟨fun _ hs => exec_commitDiff_eq_commitFull hs, fun _ _ h => exec_commitDiff_eq_commitFull (exec_setup_synced h)⟩

/-- Where CB equals FB no word differs. -/
theorem State.differs_of_cb_eq_fb {s : State} (h : ∀ i, i < 1024 → s.cbByte i = s.fbByte i) {w : Nat} (hw : w < 512) :
    s.differs w = false := by
  rw [Bool.eq_false_iff, Ne, State.differs_iff, h _ (by omega), h _ (by omega)]
  simp

/-- Bytes of FB are those of the state before the commit. -/
theorem State.fbByte_commit (k : Config.CommandBytes) (ws : List Nat) (s : State) (i : Nat) :
    (s.commit k ws).fbByte i = s.fbByte i :=
  State.fbByte_congr (s.commit_fb k ws) (s.commit_draw k ws) i

/-- A second commit that sends nothing changes nothing. -/
theorem State.commit_nil_commit (k : Config.CommandBytes) (ws : List Nat) (s : State) :
    (s.commit k ws).commit k [] = s.commit k ws := by
  have hcb : ((s.commit k ws).commit k []).cb = (s.commit k ws).cb := by
    rw [State.commit_cb, funext (State.fbByte_commit k ws s), State.commit_cb]
  have hstatus : (s.commit k ws).status ||| 0x00000002#32 = (s.commit k ws).status := by
    rw [State.commit_status, BitVec.or_assoc]
    rfl
  rw [State.commit_eq, hcb, hstatus, List.flatMap_nil, List.append_nil, decide_eq_true rfl, Bool.and_true,
    Bool.and_true]

/-- Settles O48: after COMMIT_FULL no word differs, so the second commit sends nothing. -/
theorem commitDiffAfterCommitFullIsSilent : Obligations.CommitDiffAfterCommitFullIsSilent := by
  intro s t hi h
  obtain rfl := exec_unique h (exec_commitFull s hi)
  have hnone : (traverse.filter fun w => !(s.commit Config.commandBytes traverse).flag .synced ||
      (s.commit Config.commandBytes traverse).differs w) = [] := by
    rw [List.filter_eq_nil_iff, traverse_eq]
    intro w hw
    have hd := State.differs_of_cb_eq_fb (s := s.commit Config.commandBytes (List.range 512))
      (fun i h => (State.cbByte_commit _ _ s h).trans (State.fbByte_commit _ _ s i).symm) (List.mem_range.1 hw)
    rw [hd, State.flag_commit]
    simp
  rw [exec_commitDiff _ (by rw [State.flag_commit, hi, Bool.true_or]), hnone, State.commit_nil_commit]

/-! ## One pixel, then COMMIT_DIFF (R179) -/

/-- Putting a bit changes the byte exactly when the bit had the other value. -/
theorem putBit_eq_self_iff {byte : Byte} {b : Nat} {v : Bool} (hb : b < 8) :
    putBit byte b v = byte ↔ byte.getLsbD b = v := by
  constructor
  · intro h
    rw [← h, getLsbD_putBit byte b v b hb hb, if_pos rfl]
  · intro h
    apply BitVec.eq_of_getLsbD_eq
    intro j hj
    rw [getLsbD_putBit byte b v j hb hj, ← h]
    split
    · subst_vars; rfl
    · rfl

/-- A pixel write changes exactly the byte of an in-bounds pixel of the other value. -/
theorem State.fbByte_pixWrite_ne_iff (s : State) (x y : Int) (v : Bool) (j : Nat) :
    (s.pixWrite x y v).fbByte j ≠ s.fbByte j ↔
      (InBounds x y ∧ s.pixRead x y ≠ v) ∧ j = (pixIndex x y).1 := by
  rw [State.fbByte_pixWrite]
  by_cases h : InBounds x y ∧ j = (pixIndex x y).1
  · obtain ⟨hin, rfl⟩ := h
    rw [if_pos ⟨hin, rfl⟩, Ne, putBit_eq_self_iff (pixIndex_lt hin).2, State.pixRead, if_pos hin,
      and_iff_left rfl, and_iff_right hin]
  · rw [if_neg h]
    exact ⟨fun hne => absurd rfl hne, fun ⟨⟨hin, _⟩, hj⟩ => absurd ⟨hin, hj⟩ h⟩

/-- The word that holds an in-bounds pixel is the one of the pixel's byte (R46, R49). -/
theorem pixIndex_div_two {x y : Int} (h : InBounds x y) :
    (pixIndex x y).1 / 2 = (y * 8 + x / 16).toNat ∧ (y * 8 + x / 16).toNat < 512 := by
  simp only [InBounds, pixIndex, Config.W, Config.H, Config.rowBytes] at *
  omega

/-- From CB equal to FB, one pixel write makes exactly the word of the pixel differ, and only if it changes the
pixel. -/
theorem State.differs_pixWrite_iff {s : State} (hcb : ∀ i, i < 1024 → s.cbByte i = s.fbByte i) (x y : Int) (v : Bool)
    {w : Nat} (hw : w < 512) :
    (s.pixWrite x y v).differs w = true ↔
      (InBounds x y ∧ s.pixRead x y ≠ v) ∧ w = (y * 8 + x / 16).toNat := by
  have hcb' : ∀ i, i < 1024 → (s.pixWrite x y v).cbByte i = s.fbByte i := fun i hi =>
    (State.cbByte_congr (s.pixWrite_cb x y v) (s.pixWrite_draw x y v) i).trans (hcb i hi)
  rw [State.differs_iff, hcb' _ (by omega), hcb' _ (by omega), State.fbByte_pixWrite_ne_iff,
    State.fbByte_pixWrite_ne_iff, ← and_or_left]
  refine and_congr_right fun ⟨hin, _⟩ => ?_
  obtain ⟨hword, -⟩ := pixIndex_div_two hin
  omega

/-- Settles O49: of the traversal the filter keeps the pixel's word if the pixel changed, and no word otherwise. -/
theorem onePixelThenCommitDiffSendsItsWord : Obligations.OnePixelThenCommitDiffSendsItsWord := by
  intro s t x y v hi hs hcb h
  obtain rfl := exec_unique h (exec_setPixel s x y v)
  have hstatus := s.pixWrite_status x y v
  have hi' : (s.pixWrite x y v).flag .init = true := (State.flag_congr hstatus _).trans hi
  have hs' : (s.pixWrite x y v).flag .synced = true := (State.flag_congr hstatus _).trans hs
  have hws : (traverse.filter fun w => !(s.pixWrite x y v).flag .synced || (s.pixWrite x y v).differs w) =
      if InBounds x y ∧ s.pixRead x y ≠ v then [(y * 8 + x / 16).toNat] else [] := by
    have hfilter : ∀ w ∈ List.range 512, ((!(s.pixWrite x y v).flag .synced || (s.pixWrite x y v).differs w) = true ↔
        (InBounds x y ∧ s.pixRead x y ≠ v) ∧ w = (y * 8 + x / 16).toNat) := fun w hw => by
      rw [hs', Bool.not_true, Bool.false_or, State.differs_pixWrite_iff hcb x y v (List.mem_range.1 hw)]
    rw [traverse_eq]
    split
    · rename_i hc
      have hmem : (y * 8 + x / 16).toNat ∈ List.range 512 := List.mem_range.2 (pixIndex_div_two hc.1).2
      rw [List.filter_congr (q := fun w => decide (w = (y * 8 + x / 16).toNat)), List.filter_eq,
        List.count_eq_one_of_mem List.nodup_range hmem]
      · rfl
      · intro w hw
        rw [Bool.eq_iff_iff, hfilter w hw, decide_eq_true_iff]
        exact and_iff_right hc
    · rename_i hc
      exact List.filter_eq_nil_iff.2 fun w hw hd => hc ((hfilter w hw).1 hd).1
  refine ⟨_, exec_commitDiff _ hi', fun i h => ?_, ?_⟩
  · rw [State.cbByte_commit _ _ _ h, State.fbByte_commit]
  · rw [State.commit_wire, State.pixWrite_wire, hws, apply_ite (List.flatMap _)]
    rw [List.flatMap_singleton, List.flatMap_nil]

/-! ## Traffic (R177) -/

section
variable (p : WireEvent → Bool) (hbit : ∀ b, p (.bit b) = false) (hwait : ∀ n, p (.wait n) = true)
include hbit

theorem countP_frameEvents (rs : Bool) (v : Byte) : (frameEvents rs v).countP p = 0 := by
  refine List.countP_eq_zero.2 fun e he => ?_
  obtain ⟨b, -, rfl⟩ := List.mem_map.1 he
  rw [hbit]
  exact Bool.false_ne_true

include hwait

theorem countP_setupEvents (k : Config.CommandBytes) (n : Nat) : (setupEvents k n).countP p = 1 := by
  simp only [setupEvents, writeCmd, List.countP_append, countP_frameEvents p hbit, List.countP_singleton,
    hwait, if_true]
end

/-- Settles O50: the setup sequence has 97 events, one a wait; a commit has 96 for each word; a refusal sends none. -/
theorem trafficOfTheProtocolCommands : Obligations.TrafficOfTheProtocolCommands := by
  refine fun s => ⟨⟨_, exec_setup s, ?_, ?_⟩, fun hi => ⟨_, exec_commitFull s hi, ?_⟩,
    fun hi hs => ⟨_, exec_commitDiff s hi, ?_⟩, fun hi hs => ⟨_, exec_commitDiff_unsynced hi hs, ?_⟩,
    fun hi => ⟨_, _, exec_commitDiff_refused s hi, exec_commitFull_refused s hi, rfl, rfl⟩⟩
  · rw [State.clearFlag_wire, State.setFlag_wire, State.emit_wire, List.length_append, setupEvents_length]
  · rw [State.clearFlag_wire, State.setFlag_wire, State.emit_wire, List.countP_append,
      countP_setupEvents _ (fun _ => rfl) fun _ => rfl]
  · rw [State.commit_wire, List.length_append, sendWords_length, traverse_length]
  · rw [State.commit_wire, List.length_append, sendWords_length, traverse_eq, hs, List.countP_eq_length_filter]
    rfl
  · rw [State.commit_wire, List.length_append, sendWords_length, traverse_length]

end Sys2Proof.Machine
end

/-! # The invariants (spec/10_state.md, spec/42_protocol.md section 7): the display image, the state's own, reset -/

section

namespace Sys2Proof.Machine

/-! ## The display image (R180, R181) -/

/-- What is shown at a word's address is what the observer of the whole trace holds there (R180). -/
theorem State.shown_eq (s : State) (w : Nat) :
    s.shown w = (observe Config.commandBytes s.wire).image (addrOf (wordRow w) (wordCol w)).1
      (addrOf (wordRow w) (wordCol w)).2 := rfl

/-- The display invariant speaks of the frames put before the serializer, the trace, SYNCED, CB and its draws alone. -/
theorem State.DisplayInv.congr {s t : State} (h : s.DisplayInv) (hf : t.frames = s.frames) (hw : t.wire = s.wire)
    (hs : t.flag .synced = s.flag .synced) (hcb : t.cb = s.cb) (hd : t.draw = s.draw) : t.DisplayInv where
  frames := hf.trans h.frames
  bits := hw ▸ h.bits
  group := hw ▸ h.group
  shown hsync w hlt := by
    have hcbWord : t.cbWord w = s.cbWord w := by
      rw [State.cbWord, State.cbByte_congr hcb hd, State.cbByte_congr hcb hd, State.cbWord]
    rw [hcbWord, ← h.shown (hs ▸ hsync) w hlt, State.shown, hw, State.shown]

/-- Painting keeps the display invariant: it leaves all the invariant speaks of. -/
theorem State.DisplayInv.paint {s : State} (h : s.DisplayInv) (ps : List (Int × Int)) (v : Bool) :
    (s.paint ps v).DisplayInv :=
  h.congr (s.paint_frames ps v) (s.paint_wire ps v) (State.flag_congr (s.paint_status ps v) _) (s.paint_cb ps v)
    (s.paint_draw ps v)

/-- After SETUP the image is unknown and SYNCED clear (R170, R180). -/
theorem State.DisplayInv.setup {s t : State} (h : s.DisplayInv) (hx : exec .setup s = .next t) : t.DisplayInv := by
  have hsynced := exec_setup_synced hx
  obtain rfl := exec_unique hx (exec_setup s)
  have hobs : observe Config.commandBytes (s.wire ++ setupEvents Config.commandBytes Config.clearWait) =
      ⟨[], [], fun _ _ => none⟩ := by
    rw [observe_append, take_setup _ _ _ h.bits h.group]
  exact ⟨h.frames, congrArg Observer.bits hobs, congrArg Observer.group hobs, fun hs => by rw [hsynced] at hs; cases hs⟩

/-- A commit that sends every word whose address does not yet show FB leaves the image equal to FB, which CB then is. -/
theorem State.DisplayInv.commit {s : State} (h : s.DisplayInv) {ws : List Nat} (hws : ∀ w ∈ ws, w < 512)
    (hrest : ∀ w, w < 512 → w ∉ ws → s.shown w = some (s.fbWord w)) :
    (s.commit Config.commandBytes ws).DisplayInv ∧
      ∀ w, w < 512 → (s.commit Config.commandBytes ws).shown w = some ((s.commit Config.commandBytes ws).fbWord w) := by
  obtain ⟨hbits, hgroup, himage⟩ := take_sendWords Config.commandBytes s ws hws _ h.bits h.group
  rw [← observe_append, ← State.commit_wire] at hbits hgroup himage
  have hfb : ∀ w, (s.commit Config.commandBytes ws).fbWord w = s.fbWord w := fun w => by
    rw [State.fbWord, State.fbByte_commit, State.fbByte_commit, State.fbWord]
  have hcb : ∀ w, w < 512 → (s.commit Config.commandBytes ws).cbWord w = s.fbWord w := fun w hw => by
    rw [State.cbWord, State.cbByte_commit _ _ _ (by omega), State.cbByte_commit _ _ _ (by omega), State.fbWord]
  have hshown : ∀ w, w < 512 → (s.commit Config.commandBytes ws).shown w = some (s.fbWord w) := fun w hw => by
    rw [State.shown_eq, himage w hw]
    split
    · rfl
    · exact hrest w hw ‹_›
  refine ⟨⟨h.frames, hbits, hgroup, fun _ w hw => ?_⟩, fun w hw => ?_⟩
  · rw [hshown w hw, hcb w hw]
  · rw [hshown w hw, hfb]

/-- A commit that is not refused keeps the display invariant and shows FB at every word's address (R181): COMMIT_FULL
sends every word; COMMIT_DIFF leaves out, with a valid last-sent copy, only words CB and so the image already agree
on. -/
theorem State.DisplayInv.exec_commit {s t : State} {i : Instr} (h : s.DisplayInv) (hi : s.flag .init = true)
    (hc : i = .commitDiff ∨ i = .commitFull) (hx : exec i s = .next t) :
    t.DisplayInv ∧ ∀ w, w < 512 → t.shown w = some (t.fbWord w) := by
  have hmem : ∀ w, w ∈ traverse ↔ w < 512 := fun w => by rw [traverse_eq, List.mem_range]
  obtain rfl | rfl := hc
  · obtain rfl := exec_unique hx (exec_commitDiff s hi)
    refine h.commit (fun w hw => (hmem w).1 (List.mem_filter.1 hw).1) fun w hw hnot => ?_
    have hkept : ¬ (!s.flag .synced || s.differs w) = true := fun hd =>
      hnot (List.mem_filter.2 ⟨(hmem w).2 hw, hd⟩)
    rw [Bool.not_eq_true, Bool.or_eq_false_iff, Bool.not_eq_false', Bool.eq_false_iff, Ne, State.differs_iff, not_or,
      not_not, not_not] at hkept
    obtain ⟨hsync, heven, hodd⟩ := hkept
    rw [h.shown hsync w hw, State.cbWord, State.fbWord, heven, hodd]
  · obtain rfl := exec_unique hx (exec_commitFull s hi)
    exact h.commit (fun w hw => (hmem w).1 hw) fun w hw hnot => absurd ((hmem w).2 hw) hnot

/-- Raising an error keeps the display invariant: it leaves SYNCED. -/
theorem State.DisplayInv.raise {s : State} (h : s.DisplayInv) (e : ErrorCode) : (s.raise e).DisplayInv :=
  h.congr rfl rfl (by rw [State.flag_raise]; cases e <;> simp [ErrorCode.bit]) rfl rfl

/-- Every operation a host can send keeps the display invariant. -/
theorem State.DisplayInv.exec {s t : State} {i : Instr} (h : s.DisplayInv)
    (hi : ∀ v, i ≠ .frameCmd v ∧ i ≠ .frameData v) (hx : Machine.exec i s = .next t) : t.DisplayInv := by
  cases instrKind i with
  | paints ps v _ hp => rw [exec_unique hx (hp s)]; exact h.paint ps v
  | fill v => rw [exec_unique hx (exec_fill s v)]; exact h.congr rfl rfl rfl rfl rfl
  | getPixel x y => rw [exec_unique hx (exec_getPixel s x y)]; exact h.congr rfl rfl rfl rfl rfl
  | readStatus => rw [exec_unique hx (exec_readStatus s)]; exact h.congr rfl rfl rfl rfl rfl
  | setup => exact h.setup hx
  | commitDiff =>
    obtain ⟨hinit, -⟩ | ⟨-, rfl⟩ := exec_commitDiff_cases hx
    · exact (h.exec_commit hinit (.inl rfl) hx).1
    · exact h.raise _
  | commitFull =>
    obtain ⟨hinit, -⟩ | ⟨-, rfl⟩ := exec_commitFull_cases hx
    · exact (h.exec_commit hinit (.inr rfl) hx).1
    · exact h.raise _
  | sendsFrame rs v hf _ => exact absurd hf (not_or.2 (hi v))
  | reserved _ hr => rw [exec_unique hx (hr s)]; exact h.raise _

/-- What the decoder reads at the front of a stream is a whole command, the rest after it. -/
theorem decodeStream_eq_command {ws rest : List Word} {i : Instr} (h : decodeStream ws = .command i rest) :
    ∃ hd ops, ws = hd :: (ops ++ rest) ∧ ops.length = operandWords hd ∧ decodeCommand hd ops = .ok i := by
  cases ws with
  | nil => cases h
  | cons hd ws =>
    rw [decodeStream_cons] at h
    split at h
    · cases h
    · rename_i hl
      split at h
      · rename_i j hj
        injection h with hij hrest
        exact ⟨hd, ws.take (operandWords hd), by rw [← hrest, List.take_append_drop],
          by rw [List.length_take]; omega, hij ▸ hj⟩
      · cases h

/-- A wire frame is no command of the stream (R70, R75): a command of the stream encodes to words. -/
theorem not_frame_of_fetch {s : State} {i : Instr} {rest : List Word} (h : s.fetch = .command i rest) (v : Byte) :
    i ≠ .frameCmd v ∧ i ≠ .frameData v := by
  obtain ⟨hd, ops, -, hl, hc⟩ := decodeStream_eq_command h
  obtain ⟨-, henc⟩ := encode_of_decodeOp rfl hl hc
  constructor <;> rintro rfl <;> cases henc

/-- Settles O56: from a step's inversion, the operation run keeps the invariant (`State.DisplayInv.exec`), and so do
waiting and raising an error; no frame is put before the serializer. -/
theorem stepKeepsDisplayInv : Obligations.StepKeepsDisplayInv := by
  intro s t h hstep
  obtain ⟨f, fs, i, hf, -, -⟩ | ⟨-, -, rfl⟩ | ⟨_, rest, -, -, rfl⟩ | ⟨i, rest, -, hfetch, hx⟩ := step_cases hstep
  · rw [h.frames] at hf
    cases hf
  · exact h.congr s.absorb_frames s.absorb_wire (State.flag_congr s.absorb_status _) s.absorb_cb s.absorb_draw
  · have hafter : (s.afterCommand rest).DisplayInv := h.congr rfl rfl rfl rfl rfl
    exact hafter.raise _
  · have hafter : (s.afterCommand rest).DisplayInv := h.congr rfl rfl rfl rfl rfl
    exact hafter.exec (not_frame_of_fetch hfetch) hx

/-- After a reset nothing is known of the image and SYNCED is clear (R240). -/
theorem displayInv_of_reset {s : State} (hf : s.frames = []) (hw : s.wire = []) (hs : s.status = 0) : s.DisplayInv where
  frames := hf
  bits := by rw [hw]; rfl
  group := by rw [hw]; rfl
  shown hsync := by
    rw [State.flag, hs] at hsync
    cases hsync

/-- Settles O57, by `displayInv_of_reset`. -/
theorem resetSatisfiesDisplayInv : Obligations.ResetSatisfiesDisplayInv := displayInv_of_reset rfl rfl rfl

/-- Settles O58, by `State.DisplayInv.exec_commit`. -/
theorem commitShowsTheFramebuffer : Obligations.CommitShowsTheFramebuffer := by
  intro s i h hi hc
  obtain ⟨t, ht⟩ := exec_total i s
  exact ⟨t, ht, (h.exec_commit hi hc ht).2⟩

/-! ## The state's own invariant (R25, R28, R35, R45) -/

/-- Every operation keeps the canonical form of both buffers. -/
theorem exec_keeps_wf {i : Instr} {s t : State} (h : exec i s = .next t) (hfb : s.fb.wf = true) (hcb : s.cb.wf = true) :
    t.fb.wf = true ∧ t.cb.wf = true := by
  obtain ⟨u, hu, hcases⟩ := exec_cases i s
  obtain rfl := exec_unique h hu
  obtain ⟨ps, v, rfl⟩ | ⟨v, -, rfl⟩ | ⟨w, rfl, -⟩ | ⟨e, rfl⟩ | ⟨-, rfl⟩ | ⟨ws, -, -, rfl⟩ | ⟨rs, v, -, rfl⟩ := hcases
  · exact ⟨State.wf_paint hfb ps v, by rwa [State.paint_cb]⟩
  · exact ⟨Memory.wf_ofBytes _, hcb⟩
  · exact ⟨hfb, hcb⟩
  · exact ⟨hfb, hcb⟩
  · exact ⟨hfb, hcb⟩
  · exact ⟨hfb, by rw [State.commit_cb]; exact Memory.wf_ofBytes _⟩
  · exact ⟨hfb, hcb⟩

/-- Every operation leaves low lines low (R28, R35). -/
theorem exec_keeps_lines {i : Instr} {s t : State} (h : exec i s = .next t) (hd : s.data = false) (hc : s.clk = false) :
    t.data = false ∧ t.clk = false := by
  obtain ⟨u, hu, hcases⟩ := exec_cases i s
  obtain rfl := exec_unique h hu
  obtain ⟨ps, v, rfl⟩ | ⟨v, -, rfl⟩ | ⟨w, rfl, -⟩ | ⟨e, rfl⟩ | ⟨-, rfl⟩ | ⟨ws, -, -, rfl⟩ | ⟨rs, v, -, rfl⟩ := hcases
  · exact ⟨by rwa [State.paint_data], by rwa [State.paint_clk]⟩
  · exact ⟨hd, hc⟩
  · exact ⟨hd, hc⟩
  · exact ⟨hd, hc⟩
  · simp
  · rw [State.commit_data, State.commit_clk, hd, hc]
    exact lines_sendWords _ s ws
  · simp

/-- Every operation keeps STATUS legal: by the table of R25, SYNCED is set only by a commit that finds INIT set. -/
theorem exec_keeps_legalStatus {i : Instr} {s t : State} (h : exec i s = .next t) (hs : LegalStatus s.status) :
    LegalStatus t.status := by
  obtain ⟨hhard, himp⟩ := hs
  obtain ⟨hinit, hsynced, -, -, hkept⟩ := exec_statusTable h
  refine ⟨hkept.trans hhard, fun hb => ?_⟩
  have hb' := hsynced.symm.trans hb
  refine hinit.trans ?_
  by_cases hi : i = .setup
  · rw [if_pos hi] at hb'
    cases hb'
  · rw [if_neg hi, Bool.or_eq_true, Bool.and_eq_true] at hb'
    rw [Bool.or_eq_true]
    exact .inl (hb'.elim himp And.left)

/-- Every operation keeps the invariant. -/
theorem State.Inv.exec {s t : State} {i : Instr} (h : s.Inv) (hx : Machine.exec i s = .next t) : t.Inv := by
  obtain ⟨hfb, hcb⟩ := exec_keeps_wf hx h.fbWf h.cbWf
  obtain ⟨hdata, hclk⟩ := exec_keeps_lines hx h.data h.clk
  obtain ⟨hdec, -, -, -⟩ := exec_keeps_stream hx
  exact ⟨hfb, hcb, exec_keeps_legalStatus hx h.status, hdata, hclk, hdec ▸ h.decoder⟩

/-- Waiting leaves the decoder inside a command with an operand word owed, or at a boundary with nothing there. -/
theorem owes_absorb {s : State} (hw : s.fetch = .waiting) : s.absorb.decoder.owes := by
  obtain hnil | ⟨h, ops, hcons, hl⟩ := (decodeStream_waiting_iff _).1 hw
  · rw [State.absorb_of_nil hnil, DecoderPos.eq_boundary (List.append_eq_nil_iff.1 hnil).1]
    trivial
  · rw [State.absorb_of_cons hcons]
    exact hl

/-- Settles O54: from a step's inversion, the operation run keeps the invariant (`State.Inv.exec`), and an illegal
command is recorded as a reserved operation is; waiting moves the decoder's position. -/
theorem stepKeepsInv : Obligations.StepKeepsInv := by
  intro s t h hstep
  have hafter : ∀ rest, (s.afterCommand rest).Inv := fun _ => ⟨h.fbWf, h.cbWf, h.status, h.data, h.clk, trivial⟩
  obtain ⟨f, fs, i, -, -, hx⟩ | ⟨-, hw, rfl⟩ | ⟨_, rest, -, -, rfl⟩ | ⟨i, rest, -, -, hx⟩ := step_cases hstep
  · have hframes : State.Inv { s with frames := fs } := ⟨h.fbWf, h.cbWf, h.status, h.data, h.clk, h.decoder⟩
    exact hframes.exec hx
  · obtain ⟨hfb, hcb, hstatus, hdata, hclk, -⟩ := h
    exact ⟨by rwa [State.absorb_fb], by rwa [State.absorb_cb], by rwa [State.absorb_status],
      by rwa [State.absorb_data], by rwa [State.absorb_clk], owes_absorb hw⟩
  · exact (hafter rest).exec (exec_reserved0 _ 0)
  · exact (hafter rest).exec hx

theorem inv_of_reset {s : State} (hfb : s.fb = []) (hcb : s.cb = []) (hs : s.status = 0) (hd : s.data = false)
    (hc : s.clk = false) (hdec : s.decoder = .boundary) : s.Inv where
  fbWf := hfb ▸ rfl
  cbWf := hcb ▸ rfl
  status := hs ▸ ⟨rfl, fun h => h⟩
  data := hd
  clk := hc
  decoder := hdec ▸ trivial

/-- Settles O55, by `inv_of_reset`. -/
theorem resetSatisfiesInv : Obligations.ResetSatisfiesInv := inv_of_reset rfl rfl rfl rfl rfl rfl

/-! ## Reset (R240) -/

theorem fbByte_of_nil {s : State} (h : s.fb = []) (i : Nat) : s.fbByte i = Config.fbDraw s.draw i := by
  rw [State.fbByte, h]
  rfl

theorem cbByte_of_nil {s : State} (h : s.cb = []) (i : Nat) : s.cbByte i = Config.cbDraw s.draw i := by
  rw [State.cbByte, h]
  rfl

/-- Settles O52: both resets leave every field but the port and the reset's number as `State.reset` has it. -/
theorem resetLeavesTheStatedValues : Obligations.ResetLeavesTheStatedValues := by
  intro s t ht
  have hdraw : t = s.warmReset → t.draw = s.draw + 1 := fun e => e ▸ rfl
  obtain rfl | rfl := ht <;>
    exact ⟨rfl, rfl, rfl, rfl, rfl, fun _ _ => rfl, fun i => ⟨fbByte_of_nil rfl i, cbByte_of_nil rfl i⟩, hdraw⟩

end Sys2Proof.Machine
end

/-! # Reachable states (spec/60_exceptions.md, spec/70_reset_and_hazards.md), and the values READ_STATUS returns -/

section

namespace Sys2Proof.Machine

/-- Settles O59: both invariants hold after a reset, every step keeps them (O54, O56), and what the outside does between
steps moves only the port, the results, or everything to a reset. -/
theorem reachableStatesAreSound : Obligations.ReachableStatesAreSound := by
  intro s h
  have hinv : s.Inv ∧ s.DisplayInv := by
    induction h with
    | reset n => exact ⟨inv_of_reset rfl rfl rfl rfl rfl rfl, displayInv_of_reset rfl rfl rfl⟩
    | step _ hstep ih => exact ⟨stepKeepsInv _ _ ih.1 hstep, stepKeepsDisplayInv _ _ ih.2 hstep⟩
    | sends ws _ ih =>
      obtain ⟨⟨hfb, hcb, hstatus, hdata, hclk, hdec⟩, hdisp⟩ := ih
      exact ⟨⟨hfb, hcb, hstatus, hdata, hclk, hdec⟩, hdisp.congr rfl rfl rfl rfl rfl⟩
    | takes _ htake ih =>
      obtain ⟨⟨hfb, hcb, hstatus, hdata, hclk, hdec⟩, hdisp⟩ := ih
      unfold State.hostTakes at htake
      split at htake
      · cases htake
      · injection htake with htake
        obtain ⟨-, rfl⟩ := Prod.mk.injEq .. ▸ htake
        exact ⟨⟨hfb, hcb, hstatus, hdata, hclk, hdec⟩, hdisp.congr rfl rfl rfl rfl rfl⟩
    | resets _ _ => exact ⟨inv_of_reset rfl rfl rfl rfl rfl rfl, displayInv_of_reset rfl rfl rfl⟩
  exact ⟨hinv.1, hinv.2, step_total hinv.2.frames⟩

/-- A reachable state between two commands, nothing on the port. -/
structure Idle (s : State) : Prop where
  reachable : Reachable s
  decoder : s.decoder = .boundary
  port : s.port = []

theorem idle_reset : Idle State.reset := ⟨Reachable.reset 0, rfl, rfl⟩

/-- The host can have any operation that encodes to words run between two commands: it sends them, and one step runs
the operation. -/
theorem Idle.exec {s t : State} {i : Instr} (h : Idle s) (hwf : i.wellFormed = true) {ws : List Word}
    (hws : encode i = .command ws) (hx : Machine.exec i s = .next t) : Idle t := by
  obtain ⟨-, hdisp, -⟩ := reachableStatesAreSound s h.reachable
  have hdecode : decode (.command ws) = .ok i := hws ▸ decodeOfEncodeIsTheInstruction i hwf
  have hstream : (s.hostSends ws).decoder.words ++ (s.hostSends ws).port = ws ++ [] := by
    rw [State.hostSends_decoder, State.hostSends_port, h.decoder, h.port, List.append_nil]
    rfl
  have hafter : (s.hostSends ws).afterCommand [] = s := by
    rw [State.hostSends, State.afterCommand, ← h.decoder, ← h.port]
  have hstep := step_of_command (s := s.hostSends ws) hdisp.frames hdecode hstream
  rw [hafter, hx] at hstep
  obtain ⟨hdec, hport, -, -⟩ := exec_keeps_stream hx
  exact ⟨(h.reachable.sends ws).step hstep, hdec.trans h.decoder, hport.trans h.port⟩

/-- Some reachable state between two commands holds `w` in STATUS. -/
def ReachesStatus (w : Word) : Prop := ∃ s, Idle s ∧ s.status = w

section
variable {w : Word}

theorem reachesStatus_zero : ReachesStatus 0 := ⟨_, idle_reset, rfl⟩

/-- A reserved operation sets ILL (R211). -/
theorem ReachesStatus.ill (h : ReachesStatus w) : ReachesStatus (w ||| 0x00000004#32) := by
  obtain ⟨s, hs, rfl⟩ := h
  exact ⟨_, hs.exec (i := .reserved0 0) rfl rfl (exec_reserved0 s 0), rfl⟩

/-- A commit before SETUP sets ORDER (R175). -/
theorem ReachesStatus.order (h : ReachesStatus w) (hi : w.getLsbD 0 = false) : ReachesStatus (w ||| 0x00000008#32) := by
  obtain ⟨s, hs, rfl⟩ := h
  exact ⟨_, hs.exec (i := .commitFull) rfl rfl (exec_commitFull_refused s hi), rfl⟩

/-- SETUP sets INIT and clears SYNCED (R170). -/
theorem ReachesStatus.init (h : ReachesStatus w) : ReachesStatus ((w ||| 0x00000001#32) &&& ~~~0x00000002#32) := by
  obtain ⟨s, hs, rfl⟩ := h
  exact ⟨_, hs.exec (i := .setup) rfl rfl (exec_setup s), rfl⟩

/-- A commit after SETUP sets SYNCED (R176). -/
theorem ReachesStatus.synced (h : ReachesStatus w) (hi : w.getLsbD 0 = true) : ReachesStatus (w ||| 0x00000002#32) := by
  obtain ⟨s, hs, rfl⟩ := h
  exact ⟨_, hs.exec (i := .commitFull) rfl rfl (exec_commitFull s hi), State.commit_status _ _ s⟩
end

/-- A word with bits 31:4 zero is its low four bits. -/
theorem eq_low_of_hardwired_zero {w : Word} (h : w &&& 0xFFFFFFF0#32 = 0#32) :
    w = (w.extractLsb' 0 4).setWidth 32 := by
  have hmask : ∀ i < 32, (0xFFFFFFF0#32).getLsbD i = decide (4 ≤ i) := by decide
  apply BitVec.eq_of_getLsbD_eq
  intro i hi
  have hbit : (w.getLsbD i && decide (4 ≤ i)) = false := by
    rw [← hmask i hi, ← BitVec.getLsbD_and, h]
    exact BitVec.getLsbD_zero
  by_cases h4 : i < 4
  · simp [h4, hi]
  · rw [decide_eq_true (by omega : 4 ≤ i), Bool.and_true] at hbit
    simp [h4, hbit]

/-- A legal STATUS has any of ILL and ORDER, and none of INIT and SYNCED, INIT alone, or both (R201). -/
theorem legalStatus_cases {w : Word} (h : LegalStatus w) :
    w &&& 0xC#32 ∈ [0x0#32, 0x4#32, 0x8#32, 0xC#32] ∧
      (w = w &&& 0xC#32 ∨ w = w &&& 0xC#32 ||| 0x1#32 ∨ w = w &&& 0xC#32 ||| 0x1#32 ||| 0x2#32) := by
  have hw := eq_low_of_hardwired_zero h.1
  generalize w.extractLsb' 0 4 = low at hw
  subst hw
  revert low
  decide

/-- Every legal STATUS is reached: the errors first, then SETUP and a commit as far as the word asks. -/
theorem reachesStatus_of_legalStatus {w : Word} (h : LegalStatus w) : ReachesStatus w := by
  have herrors : ∀ e ∈ [0x0#32, 0x4#32, 0x8#32, 0xC#32], ReachesStatus e ∧ ReachesStatus (e ||| 0x1#32) := by
    simp only [List.mem_cons, List.not_mem_nil, or_false, forall_eq_or_imp, forall_eq]
    have hzero := reachesStatus_zero
    have hill := hzero.ill
    have horder := hzero.order rfl
    have hboth := hill.order rfl
    exact ⟨⟨hzero, hzero.init⟩, ⟨hill, hill.init⟩, ⟨horder, horder.init⟩, ⟨hboth, hboth.init⟩⟩
  obtain ⟨hmem, hw⟩ := legalStatus_cases h
  obtain ⟨he, hinit⟩ := herrors _ hmem
  obtain hw | hw | hw := hw
  · exact hw ▸ he
  · exact hw ▸ hinit
  · have hset : (w &&& 0xC#32 ||| 0x1#32).getLsbD 0 = true := by simp
    exact hw ▸ hinit.synced hset

theorem exec_readStatus_iff (s : State) (w : Word) :
    exec .readStatus s = .next { s with results := s.results ++ [w] } ↔ s.status = w := by
  rw [exec_readStatus]
  constructor
  · intro h
    injection h with h
    have hres : s.results ++ [s.status] = s.results ++ [w] := congrArg State.results h
    simpa using hres
  · rintro rfl
    rfl

/-- Settles O22: READ_STATUS returns STATUS, which is legal in every reachable state (O59), and every legal word is
reached. -/
theorem readStatusReturnsExactlyTheLegalValues : Obligations.ReadStatusReturnsExactlyTheLegalValues := by
  intro w
  simp only [exec_readStatus_iff]
  constructor
  · intro h
    obtain ⟨s, hs, hw⟩ := reachesStatus_of_legalStatus h
    exact ⟨s, hs.reachable, hw⟩
  · rintro ⟨s, hs, rfl⟩
    exact (reachableStatesAreSound s hs).1.status

end Sys2Proof.Machine
end

/-! # Drawing, and the order of R244 (spec/70_reset_and_hazards.md section 2) -/

section

namespace Sys2Proof.Machine

/-! ## Drawing, from one state and from another -/

/-- A drawing command writes FB, by what FB and its draws were and nothing else. -/
theorem exec_drawing_congr {i : Instr} (hd : isDrawing i = true) {s t u : State} (ht : exec i s = .next t)
    (hfb : u.fb = s.fb) (hdraw : u.draw = s.draw) : exec i u = .next { u with fb := t.fb } := by
  cases instrKind i with
  | paints ps v _ hx =>
    rw [exec_unique ht (hx s), hx, State.paint_eq u, State.paint_fb_congr hfb hdraw]
  | fill v => rw [exec_unique ht (exec_fill s v)]; rfl
  | getPixel | readStatus | setup | commitDiff | commitFull => cases hd
  | sendsFrame rs v hi _ => obtain rfl | rfl := hi <;> cases hd
  | reserved hi _ => obtain ⟨r, rfl⟩ | ⟨r, rfl⟩ | ⟨r, rfl⟩ := hi <;> cases hd

/-- A drawing command writes FB and nothing else (R23). -/
theorem exec_drawing_eq {i : Instr} (hd : isDrawing i = true) {s t : State} (ht : exec i s = .next t) :
    t = { s with fb := t.fb } :=
  exec_unique ht (exec_drawing_congr hd ht rfl rfl)

/-- Settles O33: a drawing command by `exec_drawing_congr`; GET_PIXEL appends what FB says. -/
theorem drawingDoesNotDependOnStatus : Obligations.DrawingDoesNotDependOnStatus := by
  intro i s w hi
  obtain ⟨t, ht⟩ := exec_total i s
  refine ⟨t, ht, ?_⟩
  have hkind : isDrawing i = true ∨ ∃ x y, i = .getPixel x y := by
    obtain ⟨x, y, v, rfl⟩ | ⟨x, y, rfl⟩ | ⟨v, rfl⟩ | ⟨x0, y0, x1, y1, v, rfl⟩ | ⟨x, y, cp, v, rfl⟩ |
      ⟨x, y, cps, v, rfl⟩ := hi
    · exact .inl rfl
    · exact .inr ⟨x, y, rfl⟩
    · exact .inl rfl
    · exact .inl rfl
    · exact .inl rfl
    · exact .inl rfl
  obtain hd | ⟨x, y, rfl⟩ := hkind
  · have hw := exec_drawing_congr hd ht (u := { s with status := w }) rfl rfl
    have ht' := exec_drawing_eq hd ht
    rw [hw, ht']
    exact ⟨rfl, rfl, rfl, rfl, rfl, rfl⟩
  · obtain rfl := exec_unique ht (exec_getPixel s x y)
    exact ⟨rfl, rfl, rfl, rfl, rfl, rfl⟩

/-- A sequence goes on from the state its first part leaves. -/
theorem execAll_append_of_next {is js : List Instr} {s t : State} (h : execAll is s = .next t) :
    execAll (is ++ js) s = execAll js t := by
  induction is generalizing s with
  | nil => injection h with h; rw [h]; rfl
  | cons i is ih =>
    obtain ⟨u, hu⟩ := exec_total i s
    rw [execAll_cons_next hu] at h
    rw [List.cons_append, execAll_cons_next hu, ih h]

/-- Drawing commands write FB, by what FB and its draws were and nothing else. -/
theorem execAll_drawing_congr {is : List Instr} (hd : ∀ i ∈ is, isDrawing i = true) {s t u : State}
    (ht : execAll is s = .next t) (hfb : u.fb = s.fb) (hdraw : u.draw = s.draw) :
    execAll is u = .next { u with fb := t.fb } ∧ t.draw = s.draw := by
  induction is generalizing s u with
  | nil =>
    injection ht with ht
    subst ht
    rw [← hfb]
    exact ⟨rfl, rfl⟩
  | cons i is ih =>
    obtain ⟨a, ha⟩ := exec_total i s
    rw [execAll_cons_next ha] at ht
    have hdi := hd i List.mem_cons_self
    have hadraw : a.draw = s.draw := exec_draw ha
    obtain ⟨hrest, htdraw⟩ := ih (u := { u with fb := a.fb }) (fun j hj => hd j (List.mem_cons_of_mem _ hj)) ht rfl
      (hdraw.trans hadraw.symm)
    exact ⟨(execAll_cons_next (exec_drawing_congr hdi ha hfb hdraw)).trans hrest, htdraw.trans hadraw⟩

/-! ## The order of R244 -/

/-- What holds after each commit of R244's order: the screen shows FB. -/
structure ScreenShowsFb (s : State) : Prop where
  display : s.DisplayInv
  init : s.flag .init = true
  synced : s.flag .synced = true
  shown : ∀ w, w < 512 → s.shown w = some (s.fbWord w)

/-- A commit after SETUP leaves FB and its draws, and the screen showing FB. -/
theorem exec_commit_shows {i : Instr} (hc : i = .commitDiff ∨ i = .commitFull) {s t : State} (h : s.DisplayInv)
    (hi : s.flag .init = true) (hx : exec i s = .next t) :
    ScreenShowsFb t ∧ t.fb = s.fb ∧ t.draw = s.draw := by
  obtain ⟨hdisp, hshown⟩ := h.exec_commit hi hc hx
  obtain ⟨hinit, hsynced, -⟩ := exec_statusTable hx
  have hne : i ≠ .setup := by obtain rfl | rfl := hc <;> simp
  refine ⟨⟨hdisp, by rw [hinit, hi, Bool.true_or], ?_, hshown⟩, exec_fb_of_not_drawing hx ?_, exec_draw hx⟩
  · rw [hsynced, if_neg hne, hi]
    obtain rfl | rfl := hc <;> simp
  · obtain rfl | rfl := hc <;> rfl

/-- Drawing changes nothing the display invariant speaks of. -/
theorem State.DisplayInv.withFb {s : State} (h : s.DisplayInv) (m : Memory) : State.DisplayInv { s with fb := m } :=
  h.congr rfl rfl rfl rfl rfl

/-- Redraws, each ended by COMMIT_DIFF, leave the screen showing FB, which holds what the drawing commands alone leave
from a state with the same FB. -/
theorem redraws_show {redraws : List (List Instr)} (hd : ∀ draws ∈ redraws, ∀ i ∈ draws, isDrawing i = true)
    {s c : State} (hs : ScreenShowsFb s) (hfb : s.fb = c.fb) (hdraw : s.draw = c.draw) :
    ∃ t u, execAll (redraws.flatMap fun draws => draws ++ [.commitDiff]) s = .next t ∧
      execAll redraws.flatten c = .next u ∧ ScreenShowsFb t ∧ t.fb = u.fb ∧ t.draw = u.draw := by
  induction redraws generalizing s c with
  | nil => exact ⟨s, c, rfl, rfl, hs, hfb, hdraw⟩
  | cons draws redraws ih =>
    obtain ⟨c', hc', -, -⟩ := anySequenceOfOperationsCompletes draws c
    obtain ⟨hdrawn, hc'draw⟩ := execAll_drawing_congr (hd draws List.mem_cons_self) hc' hfb hdraw
    obtain ⟨s', hs'⟩ := exec_total .commitDiff { s with fb := c'.fb }
    obtain ⟨hshows, hs'fb, hs'draw⟩ := exec_commit_shows (.inl rfl) (hs.display.withFb c'.fb) hs.init hs'
    obtain ⟨t, u, ht, hu, hrest⟩ := ih (c := c') (fun d hm => hd d (List.mem_cons_of_mem _ hm)) hshows hs'fb
      (hs'draw.trans (hdraw.trans hc'draw.symm))
    refine ⟨t, u, ?_, ?_, hrest⟩
    · rw [List.flatMap_cons, List.append_assoc, execAll_append_of_next hdrawn, List.singleton_append,
        execAll_cons_next hs', ht]
    · rw [List.flatten_cons, execAll_append_of_next hc', hu]

/-- Settles O60: SETUP sets INIT, the drawing is the same from the state it leaves (`execAll_drawing_congr`),
COMMIT_FULL makes the screen show it, and the redraws keep it so (`redraws_show`). -/
theorem refreshOrderShowsTheDrawing : Obligations.RefreshOrderShowsTheDrawing := by
  intro s v first redraws hreach hfirst hredraws
  obtain ⟨-, hdisp, -⟩ := reachableStatesAreSound s hreach
  obtain ⟨s1, hs1⟩ := exec_total .setup s
  have hs1fb : s1.fb = s.fb := exec_fb_of_not_drawing hs1 rfl
  have hs1draw : s1.draw = s.draw := exec_draw hs1
  have hs1init : s1.flag .init = true := by
    obtain ⟨hinit, -⟩ := exec_statusTable hs1
    rw [hinit, decide_eq_true rfl, Bool.or_true]
  have hdraws : ∀ i ∈ .fill v :: first, isDrawing i = true := List.forall_mem_cons.2 ⟨rfl, hfirst⟩
  obtain ⟨c, hc, -, -⟩ := anySequenceOfOperationsCompletes (.fill v :: first) s
  obtain ⟨hdrawn, hcdraw⟩ := execAll_drawing_congr hdraws hc hs1fb hs1draw
  obtain ⟨s2, hs2⟩ := exec_total .commitFull { s1 with fb := c.fb }
  obtain ⟨hshows, hs2fb, hs2draw⟩ := exec_commit_shows (.inr rfl) ((hdisp.setup hs1).withFb c.fb) hs1init hs2
  obtain ⟨t, u, ht, hu, hts, htfb, htdraw⟩ := redraws_show (c := c) hredraws hshows hs2fb
    (hs2draw.trans (hs1draw.trans hcdraw.symm))
  refine ⟨t, u, ?_, ?_, hts.synced, hts.shown, State.fbByte_congr htfb htdraw⟩
  · have hrun := execAll_append_of_next
      (js := .commitFull :: redraws.flatMap fun draws => draws ++ [.commitDiff]) hdrawn
    exact (execAll_cons_next hs1).trans (hrun.trans ((execAll_cons_next hs2).trans ht))
  · exact (execAll_append_of_next (js := redraws.flatten) hc).trans hu

end Sys2Proof.Machine
end

/-! # The framebuffer commands (spec/40_framebuffer.md) and the glyph commands (spec/41_glyph.md) -/

section

namespace Sys2Proof.Machine

/-! ## The layout (R46, R48) -/

/-- The pixel that lies at a bit of a byte (R46). -/
theorem pixIndex_eq_iff {x y : Int} (h : InBounds x y) {a b : Nat} :
    pixIndex x y = (a, b) ↔ a < 1024 ∧ b < 8 ∧ x = 8 * (a % 16 : Nat) + (7 - b) ∧ y = (a / 16 : Nat) := by
  rw [Prod.ext_iff]
  simp only [InBounds, pixIndex, Config.W, Config.H, Config.rowBytes] at *
  omega

/-- Settles O24: bit `b` of byte `a` is the pixel at `(8 (a mod 16) + 7 - b, a / 16)` (`pixIndex_eq_iff`). -/
theorem pixelLayoutIsRowMajorMsbFirst : Obligations.PixelLayoutIsRowMajorMsbFirst := by
  refine ⟨fun y k j hy hk hj => ?_, fun a b ha hb => ?_⟩
  · have hin : InBounds (8 * k + j : Nat) (y : Nat) := by
      simp only [InBounds, Config.W, Config.H]
      omega
    exact (pixIndex_eq_iff hin).2 ⟨by omega, by omega, by omega, by omega⟩
  · have hin : InBounds (8 * (a % 16 : Nat) + (7 - b)) (a / 16 : Nat) := by
      simp only [InBounds, Config.W, Config.H]
      omega
    refine ⟨(8 * (a % 16 : Nat) + (7 - b), (a / 16 : Nat)), ⟨hin, (pixIndex_eq_iff hin).2 ⟨ha, hb, rfl, rfl⟩⟩, ?_⟩
    rintro ⟨x, y⟩ ⟨hxy, e⟩
    obtain ⟨-, -, hx, hy⟩ := (pixIndex_eq_iff hxy).1 e
    exact Prod.ext hx hy

/-- Two states that read alike at every in-bounds pixel have the same bytes in FB: every bit is a pixel (R48). -/
theorem fbByte_eq_of_pixRead_eq {s t : State} (h : ∀ x y, InBounds x y → t.pixRead x y = s.pixRead x y) {a : Nat}
    (ha : a < 1024) : t.fbByte a = s.fbByte a := by
  apply BitVec.eq_of_getLsbD_eq
  intro b hb
  obtain ⟨⟨x, y⟩, ⟨hin, e⟩, -⟩ := pixelLayoutIsRowMajorMsbFirst.2 a b ha hb
  have hpix := h x y hin
  rw [State.pixRead, State.pixRead, if_pos hin, if_pos hin] at hpix
  simp only at e
  rwa [e] at hpix

/-! ## SET_PIXEL, then GET_PIXEL (R107) -/

theorem exec_getPixel_eq (u : State) (x y : Int) :
    exec (.getPixel x y) u = .next { u with results := u.results ++ [if u.pixRead x y then 1#32 else 0#32] } := by
  rw [exec_getPixel, setWidth_ofBool_eq_ite]
  rfl

/-- Settles O27, by what a pixel reads after one pixel write (`State.pixRead_pixWrite`). -/
theorem pixelRoundTrip : Obligations.PixelRoundTrip := by
  intro s t x y v hx0 hx hy0 hy h
  obtain rfl := exec_unique h (exec_setPixel s x y v)
  have hsame : (s.pixWrite x y v).pixRead x y = v := by
    rw [State.pixRead_pixWrite, if_pos ⟨⟨hx0, hx, hy0, hy⟩, rfl, rfl⟩]
  have hother : ∀ x' y', (x', y') ≠ (x, y) → (s.pixWrite x y v).pixRead x' y' = s.pixRead x' y' := fun x' y' hne => by
    rw [State.pixRead_pixWrite, if_neg fun ⟨_, hx', hy'⟩ => hne (by rw [hx', hy'])]
  refine ⟨?_, fun x' y' hne => ⟨_, exec_getPixel_eq s x' y', ?_⟩⟩
  · rw [exec_getPixel_eq, hsame, State.pixWrite_results]
  · rw [exec_getPixel_eq, hother x' y' hne]

/-! ## FILL (R104) -/

/-- Every bit of FILL's byte is its value. -/
theorem getLsbD_fillByte (v : Bool) {b : Nat} (hb : b < 8) : (if v then 0xFF#8 else 0x00#8).getLsbD b = v := by
  have hones : ∀ b < 8, (0xFF#8).getLsbD b = true := by decide
  cases v
  · exact BitVec.getLsbD_zero
  · exact hones b hb

theorem State.fbByte_fill (s : State) (v : Bool) {i : Nat} (hi : i < 1024) :
    (s.setFb fun _ => if v then 0xFF else 0x00).fbByte i = if v then 0xFF#8 else 0x00#8 := State.fbByte_setFb s _ hi

theorem State.pixRead_fill (s : State) (v : Bool) {x y : Int} (h : InBounds x y) :
    (s.setFb fun _ => if v then 0xFF else 0x00).pixRead x y = v := by
  rw [State.pixRead, if_pos h, State.fbByte_fill s v (pixIndex_lt h).1, getLsbD_fillByte v (pixIndex_lt h).2]

/-- Settles O28: the bytes by `State.fbByte_fill`, which no state decides, the pixels by `State.pixRead_fill`. -/
theorem fillSetsEveryByte : Obligations.FillSetsEveryByte := by
  refine fun s v => ⟨_, exec_fill s v, rfl, fun i hi => State.fbByte_fill s v hi, fun i hi s' => ?_,
    fun x y h => State.pixRead_fill s v h⟩
  exact ⟨_, exec_fill s' v, (State.fbByte_fill s' v hi).trans (State.fbByte_fill s v hi).symm⟩

/-! ## Painting exactly the pixels of a set

DRAW_RECT, DRAW_GLYPH and DRAW_TEXT each paint a list whose in-bounds pixels are the in-bounds pixels of the command's
set; these say once what that leaves. -/

section
variable {s : State} {ps : List (Int × Int)} {P : Int → Int → Prop}

/-- A pixel of the set reads the value, any other as before. -/
theorem pixRead_paint_of_mem_iff (hps : ∀ px py, InBounds px py → ((px, py) ∈ ps ↔ P px py)) (v : Bool) {px py : Int}
    (hin : InBounds px py) :
    (P px py → (s.paint ps v).pixRead px py = v) ∧ (¬ P px py → (s.paint ps v).pixRead px py = s.pixRead px py) := by
  rw [State.pixRead_paint]
  exact ⟨fun hP => if_pos ⟨hin, (hps px py hin).2 hP⟩, fun hP => if_neg fun ⟨_, hm⟩ => hP ((hps px py hin).1 hm)⟩

/-- A byte no in-bounds pixel of the set lies in is as before. -/
theorem fbByte_paint_of_mem_iff (hps : ∀ px py, InBounds px py → ((px, py) ∈ ps ↔ P px py)) (v : Bool) {a : Nat}
    (ha : ∀ px py, InBounds px py → P px py → (pixIndex px py).1 ≠ a) : (s.paint ps v).fbByte a = s.fbByte a :=
  State.fbByte_paint s ps v a fun p hp hin => ha p.1 p.2 hin ((hps p.1 p.2 hin).1 hp)

/-- A set with no pixel in bounds changes nothing. -/
theorem paint_eq_self_of_clipped (hps : ∀ px py, InBounds px py → ((px, py) ∈ ps ↔ P px py)) (v : Bool)
    (hclip : ∀ px py, P px py → ¬ InBounds px py) : s.paint ps v = s :=
  State.paint_outOfBounds s ps v fun p hp hin => hclip p.1 p.2 ((hps p.1 p.2 hin).1 hp) hin
end

/-! ## DRAW_RECT (R105, R106) -/

/-- The pixels of the inclusive rectangle, whatever the order of its corners. -/
def RectPixel (x0 y0 x1 y1 px py : Int) : Prop :=
  min x0 x1 ≤ px ∧ px ≤ max x0 x1 ∧ min y0 y1 ≤ py ∧ py ≤ max y0 y1

theorem mem_rectPixels_iff (x0 y0 x1 y1 px py : Int) (hin : InBounds px py) :
    (px, py) ∈ rectPixels x0 y0 x1 y1 ↔ RectPixel x0 y0 x1 y1 px py :=
  mem_rectPixels.trans (and_iff_right hin)

/-- Settles O29: the pixels and the bytes by what painting a set leaves. -/
theorem drawRectPaintsTheRectangle : Obligations.DrawRectPaintsTheRectangle := by
  intro s x0 y0 x1 y1 v
  have hps := mem_rectPixels_iff x0 y0 x1 y1
  refine ⟨_, exec_drawRect s x0 y0 x1 y1 v, State.paint_eq s _ v, fun px py hin => ?_, fun a ha => ?_⟩
  · obtain ⟨hyes, hno⟩ := pixRead_paint_of_mem_iff (s := s) hps v hin
    split
    · exact hyes ‹_›
    · exact hno ‹_›
  · exact fbByte_paint_of_mem_iff hps v fun px py hin ⟨h1, h2, h3, h4⟩ => ha px py hin h1 h2 h3 h4

/-- The pixels a rectangle visits do not depend on the order of its corners. -/
theorem rectPixels_swap (x0 y0 x1 y1 : Int) :
    rectPixels x1 y1 x0 y0 = rectPixels x0 y0 x1 y1 ∧ rectPixels x1 y0 x0 y1 = rectPixels x0 y0 x1 y1 := by
  unfold rectPixels
  rw [min_comm x1 x0, max_comm x1 x0, min_comm y1 y0, max_comm y1 y0]
  exact ⟨rfl, rfl⟩

/-- Settles O30: the corners by `rectPixels_swap`; over the whole screen every in-bounds pixel reads the value after
either command, so every byte is the same. -/
theorem drawRectCornersAndWholeScreen : Obligations.DrawRectCornersAndWholeScreen := by
  refine ⟨fun s x0 y0 x1 y1 v => ?_, fun s x0 y0 x1 y1 v hx0 hy0 hx1 hy1 => ?_⟩
  · obtain ⟨hboth, hx⟩ := rectPixels_swap x0 y0 x1 y1
    simp only [exec_drawRect, hboth, hx, and_self]
  · refine ⟨_, _, exec_drawRect s x0 y0 x1 y1 v, exec_fill s v, fun i hi => fbByte_eq_of_pixRead_eq ?_ hi⟩
    intro x y hin
    obtain ⟨hx0', hx1', hy0', hy1'⟩ := id hin
    have hrect : RectPixel x0 y0 x1 y1 x y := by
      simp only [Config.W, Config.H] at hx1' hy1'
      unfold RectPixel
      omega
    obtain ⟨hyes, -⟩ := pixRead_paint_of_mem_iff (s := s) (mem_rectPixels_iff x0 y0 x1 y1) v hin
    rw [hyes hrect, State.pixRead_fill s v hin]

theorem intSpan_length (lo hi : Int) : (intSpan lo hi).length = (hi - lo + 1).toNat := by
  rw [intSpan, List.length_map, List.length_range]

/-- A rectangle visits width times height pixels, clipped to the screen. -/
theorem rectPixels_length (x0 y0 x1 y1 : Int) :
    (rectPixels x0 y0 x1 y1).length =
      (min (max x0 x1) 127 - max (min x0 x1) 0 + 1).toNat * (min (max y0 y1) 63 - max (min y0 y1) 0 + 1).toNat := by
  simp only [rectPixels, List.length_flatMap, List.length_map, intSpan_length, List.map_const', List.sum_replicate,
    smul_eq_mul, Config.W, Config.H, Nat.mul_comm]
  rfl

/-- A pixel that a rectangle changes is one of its in-bounds pixels and had the other value. -/
theorem pixRead_drawRect_ne {s : State} {x0 y0 x1 y1 px py : Int} {v : Bool}
    (h : (s.paint (rectPixels x0 y0 x1 y1) v).pixRead px py ≠ s.pixRead px py) :
    (px, py) ∈ rectPixels x0 y0 x1 y1 ∧ s.pixRead px py = !v := by
  rw [State.pixRead_paint] at h
  split at h
  · rename_i hm
    exact ⟨hm.2, Bool.eq_not_of_ne h.symm⟩
  · exact absurd rfl h

/-- No pixel of the screen is listed twice, row by row. -/
theorem nodup_screenPixels :
    ((List.range 64).flatMap fun y => (List.range 128).map fun x => (x, y)).Nodup := by
  refine List.nodup_flatMap.2 ⟨fun y _ => List.nodup_range.map fun a b e => (Prod.ext_iff.1 e).1, ?_⟩
  refine List.nodup_range.imp fun {a b} hne => ?_
  intro p hp hq
  obtain ⟨x, -, rfl⟩ := List.mem_map.1 hp
  obtain ⟨x', -, e⟩ := List.mem_map.1 hq
  exact hne (Prod.ext_iff.1 e).2.symm

/-- Settles O31: the changed pixels are listed once each and all among the pixels the rectangle visits, so they are no
more than those. -/
theorem drawRectChangesAtMostItsPixels : Obligations.DrawRectChangesAtMostItsPixels := by
  intro s t x0 y0 x1 y1 v h
  obtain rfl := exec_unique h (exec_drawRect s x0 y0 x1 y1 v)
  refine ⟨?_, fun px py hne => ?_⟩
  · rw [← rectPixels_length, List.countP_eq_length_filter]
    have hinj : Function.Injective fun p : Nat × Nat => ((p.1 : Int), (p.2 : Int)) := fun p q e => by
      obtain ⟨e1, e2⟩ := Prod.ext_iff.1 e
      exact Prod.ext (Int.ofNat_inj.1 e1) (Int.ofNat_inj.1 e2)
    rw [← List.length_map fun p : Nat × Nat => ((p.1 : Int), (p.2 : Int))]
    refine (List.subperm_of_subset ((nodup_screenPixels.filter _).map hinj) fun q hq => ?_).length_le
    obtain ⟨p, hp, rfl⟩ := List.mem_map.1 hq
    exact (pixRead_drawRect_ne (bne_iff_ne.1 (List.mem_filter.1 hp).2)).1
  · obtain ⟨hm, hval⟩ := pixRead_drawRect_ne hne
    obtain ⟨hin, hx, hx', hy, hy'⟩ := mem_rectPixels.1 hm
    exact ⟨hin, hx, hx', hy, hy', hval⟩

/-! ## DRAW_GLYPH (R130 to R133) -/

/-- Settles O35: the pixels painted are the ink (`mem_glyphPixels`). -/
theorem drawGlyphPaintsTheInk : Obligations.DrawGlyphPaintsTheInk := by
  intro s x y cp v
  have hps : ∀ px py, InBounds px py →
      ((px, py) ∈ glyphPixels Config.atlas x y cp ↔ GlyphPixel Config.atlas x y cp px py) :=
    fun _ _ _ => mem_glyphPixels
  exact ⟨_, exec_drawGlyph s x y cp v, State.paint_eq s _ v, fun px py hin => pixRead_paint_of_mem_iff hps v hin,
    fun a ha => fbByte_paint_of_mem_iff hps v ha⟩

/-- A codepoint with no cell has no ink (R130). -/
theorem glyphPixels_eq_nil {a : Config.Atlas} {cp : Nat} (h : a.nGlyphs ≤ cp) (x y : Int) :
    glyphPixels a x y cp = [] := by
  refine List.eq_nil_iff_forall_not_mem.2 fun p hp => ?_
  obtain ⟨r, c, -, ⟨hcell, -⟩, -⟩ := mem_glyphPixels.1 hp
  omega

/-- Settles O36, by `glyphPixels_eq_nil`. -/
theorem glyphWithoutCellDrawsNothing : Obligations.GlyphWithoutCellDrawsNothing := by
  intro s x y cp v h
  rw [exec_drawGlyph, glyphPixels_eq_nil h, State.paint_nil]

/-- The bits of a narrow glyph are told from the even bytes (R132). -/
theorem glyphBit_narrow_congr {a a' : Config.Atlas} {cp : Nat} (hcp : cp < 128) (hn : a.nGlyphs = a'.nGlyphs)
    (hbyte : ∀ n, n % 2 = 0 → a.byte n = a'.byte n) (r c : Nat) : glyphBit a cp r c = glyphBit a' cp r c := by
  have heven : cellAddr cp r % 2 = 0 := by
    simp only [cellAddr, Config.glyphStride, Config.glyphRowBytes]
    omega
  have hrow : (glyphRow a cp r).1 = (glyphRow a' cp r).1 := by
    rw [glyphRow, glyphRow, hn, apply_ite Prod.fst, apply_ite Prod.fst, hbyte _ heven]
  rw [glyphBit, glyphBit, if_pos hcp, if_pos hcp, hrow]

/-- Settles O37: the two atlases give the same bits, so the same pixels are painted. -/
theorem narrowGlyphIgnoresByteOne : Obligations.NarrowGlyphIgnoresByteOne := by
  intro a a' s x y cp v hcp hn hbyte
  have hbits := glyphBit_narrow_congr hcp hn hbyte
  simp only [State.drawGlyph, glyphPixels, hbits]

/-! ## DRAW_TEXT (R134 to R137) -/

/-- Operations listed by their indices paint, one after another, what each of them paints. -/
theorem execAll_filterMap_eq_paint {g : Nat → Option Instr} {f : Nat → List (Int × Int)} {v : Bool} (ks : List Nat)
    (h : ∀ k ∈ ks, (g k = none ∧ f k = []) ∨ ∃ i, g k = some i ∧ ∀ s, exec i s = .next (s.paint (f k) v)) (s : State) :
    execAll (ks.filterMap g) s = .next (s.paint (ks.flatMap f) v) := by
  induction ks generalizing s with
  | nil => rfl
  | cons k ks ih =>
    have ih' := ih fun j hj => h j (List.mem_cons_of_mem _ hj)
    rw [List.flatMap_cons, State.paint_append]
    obtain ⟨hg, hf⟩ | ⟨i, hg, hx⟩ := h k List.mem_cons_self
    · rw [List.filterMap_cons_none hg, hf, State.paint_nil, ih']
    · rw [List.filterMap_cons_some hg, execAll_cons_next (hx s), ih']

/-- Settles O38: both sides paint the glyphs' pixels, each at its position's cursor (`textPixels_eq_flatMap`). -/
theorem drawTextIsItsGlyphs : Obligations.DrawTextIsItsGlyphs := by
  intro s x y cps v
  rw [exec_drawText_eq_paint, textPixels_eq_flatMap]
  unfold textGlyphs
  refine (execAll_filterMap_eq_paint _ (fun k hk => ?_) s).symm
  obtain ⟨cp, hcp⟩ : ∃ cp, cps[k]? = some cp := ⟨_, List.getElem?_eq_getElem (List.mem_range.1 hk)⟩
  by_cases hnl : cp = 0x0A
  · exact .inl (by simp [hcp, hnl])
  · refine .inr ⟨.drawGlyph (textCursor x y (cps.take k)).1 (textCursor x y (cps.take k)).2 cp v, ?_, fun u => ?_⟩
    · simp [hcp, hnl]
    · simp [hcp, hnl, exec_drawGlyph]

/-- Settles O39: the pixels painted are the ink of the glyphs at their cursors (`mem_textPixels`). -/
theorem drawTextPaintsTheInkOfItsGlyphs : Obligations.DrawTextPaintsTheInkOfItsGlyphs := by
  intro s x y cps v
  have hps : ∀ px py, InBounds px py →
      ((px, py) ∈ textPixels Config.atlas x x y cps ↔ TextPixel Config.atlas x y cps px py) :=
    fun _ _ _ => mem_textPixels
  exact ⟨_, exec_drawText_eq_paint x y cps v s, State.paint_eq s _ v,
    fun px py hin => pixRead_paint_of_mem_iff hps v hin, fun a ha => fbByte_paint_of_mem_iff hps v ha⟩

/-- Settles O32: each of the four paints a set with no pixel in bounds. -/
theorem clippedDrawingChangesNothing : Obligations.ClippedDrawingChangesNothing := by
  refine fun s v => ⟨fun x y h => ?_, fun x0 y0 x1 y1 h => ?_, fun x y cp h => ?_, fun x y cps h => ?_⟩
  · rw [exec_setPixel, State.pixWrite_outOfBounds h]
  · rw [exec_drawRect, paint_eq_self_of_clipped (mem_rectPixels_iff x0 y0 x1 y1) v
      fun px py ⟨h1, h2, h3, h4⟩ => h px py h1 h2 h3 h4]
  · rw [exec_drawGlyph, paint_eq_self_of_clipped (fun px py _ => mem_glyphPixels) v h]
  · rw [exec_drawText_eq_paint, paint_eq_self_of_clipped (fun px py _ => mem_textPixels) v h]

/-- The cursor never lies before the text's start, and each codepoint takes it at most 16 further (R134). -/
theorem textCursor_bounds (x y : Int) (pre : List Nat) :
    x ≤ (textCursor x y pre).1 ∧ (textCursor x y pre).1 ≤ x + 16 * pre.length ∧
      y ≤ (textCursor x y pre).2 ∧ (textCursor x y pre).2 ≤ y + 16 * pre.length := by
  induction pre using List.reverseRecOn with
  | nil => simp
  | append_singleton pre cp ih =>
    have hwidth : glyphWidth cp ≤ 16 := by
      unfold glyphWidth
      split <;> decide
    rw [textCursor_concat, List.length_append, List.length_singleton]
    split <;> simp only <;> omega

/-- Settles O40: at most 65535 codepoints from a start of at most 32767. -/
theorem textCursorStaysInRange : Obligations.TextCursorStaysInRange := by
  rintro x y cps pre post v hwf rfl
  obtain ⟨⟨⟨hx, hy⟩, hlen⟩, -⟩ := (wellFormed_drawText_iff _ _ _ _).1 hwf
  rw [List.length_append] at hlen
  have := textCursor_bounds x y pre
  unfold coordOk at hx hy
  omega

end Sys2Proof.Machine
end
